-- ==== Sys2Proof/Config.lean ====
section
/-! DEFINITION. What an implementation fixes. The spec leaves no parameter open ("a model takes no argument",
00_scope.md section 6) and no free value (93_implementation_defined.md section 2), so these are plain numbers,
never fields a claim could vary. The tables and the scalar constants of R15 to R17 stand in Machine/Constants.lean. -/
namespace Sys2Proof.Config

/-- Entries of a threshold table: "exactly eight entries" (R15, R16). -/
abbrev tableLength : Nat := 8

/-- Width of the command word of g711_core (R50). -/
abbrev cmdWidth : Nat := 19

end Sys2Proof.Config
end

