-- ==== Sys2Proof/Word.lean ====
section
/-! DEFINITION. The bit vectors that cross a port (10_state.md R22 to R27; 30_encoding.md R40 to R44, R50).
Bit 0 is the least significant bit (00_scope.md section 7.1). -/
namespace Sys2Proof

/-- A linear PCM sample word, two's complement (R40); also the V operand of a locate command. -/
abbrev Sample := BitVec 16
/-- A companded code byte as it appears on a port, the wire code (R41, R43). -/
abbrev Code := BitVec 8
/-- The value port of segment_locator, LOC_W = 16 bits, unsigned (R22). -/
abbrev LocValue := BitVec 16
/-- The seg port of segment_locator, only 0..8 occur (R22, R44). -/
abbrev SegIndex := BitVec 4
/-- The op field of a command word (R50). -/
abbrev Op := BitVec 3
/-- The operand field of a command word (R50). -/
abbrev Operand := BitVec 16
/-- The command word of g711_core (R27, R50). -/
abbrev Cmd := BitVec 19
/-- The response word of g711_core (R27, R51). -/
abbrev Resp := BitVec 16
/-- A threshold table: eight natural numbers (R22, R62). -/
abbrev Table := Vector Nat Config.tableLength

end Sys2Proof
end

