-- ==== Sys2Proof/Machine/Arith.lean ====
section
/-! DEFINITION. The pseudocode primitives of 00_scope.md section 7.2 on mathematical integers (R6, R7, R8), and the maps
between bit vectors and integers of section 7.1. -/
namespace Sys2Proof.Machine

/-- Arithmetic right shift: the floor of a / 2^n (R7); Int division by a positive divisor rounds toward minus infinity. -/
def asr (a : Int) (n : Nat) : Int := a / 2 ^ n
/-- Right shift of a non-negative integer: the floor of a / 2^n. -/
def shr (a n : Nat) : Nat := a >>> n
/-- Left shift, exact: a * 2^n. -/
def shl (a n : Nat) : Nat := a <<< n
/-- Bitwise and of non-negative integers (R8). -/
def bitAnd (a b : Nat) : Nat := a &&& b
/-- Bitwise or of non-negative integers (R8). -/
def bitOr (a b : Nat) : Nat := a ||| b
/-- Bitwise xor of non-negative integers (R8). -/
def bitXor (a b : Nat) : Nat := a ^^^ b
/-- The complement of all eight bits of a byte: 255 - a. -/
def not8 (a : Nat) : Nat := 255 - a

/-- The integer a sample word stands for, two's complement (R40). -/
def sint16 (w : BitVec 16) : Int := w.toInt
/-- The word bits_16(n), n mod 2^16 (R40). -/
def bits16 (n : Int) : BitVec 16 := BitVec.ofInt 16 n
/-- The byte bits_8(n). -/
def bits8 (n : Nat) : BitVec 8 := BitVec.ofNat 8 n
/-- The 4-bit vector bits_4(n). -/
def bits4 (n : Nat) : BitVec 4 := BitVec.ofNat 4 n
/-- zext_16: widen to 16 bits with zeros in the new high bits. -/
def zext16 {n : Nat} (v : BitVec n) : BitVec 16 := v.setWidth 16

end Sys2Proof.Machine
end

