-- ==== Sys2Proof/Machine/Constants.lean ====
section
/-! DEFINITION. The constants, fixed for all time (10_state.md R15 to R17; definitions, as 70_reset_and_hazards.md R126
asks), under the spec's names. -/
namespace Sys2Proof.Machine

/-- ATAB, the A-law threshold table (R15). -/
def aTab : Table := #v[0x1F, 0x3F, 0x7F, 0xFF, 0x1FF, 0x3FF, 0x7FF, 0xFFF]
/-- UTAB, the µ-law threshold table (R16). -/
def uTab : Table := #v[0x3F, 0x7F, 0xFF, 0x1FF, 0x3FF, 0x7FF, 0xFFF, 0x1FFF]

/-- A_MASK_POS (R17). -/
def aMaskPos : Nat := 0xD5
/-- A_MASK_NEG (R17). -/
def aMaskNeg : Nat := 0x55
/-- U_MASK_POS (R17). -/
def uMaskPos : Nat := 0xFF
/-- U_MASK_NEG (R17). -/
def uMaskNeg : Nat := 0x7F
/-- SAT_CODE, the saturated pre-mask byte (R17). -/
def satCode : Nat := 0x7F
/-- SIGN_BIT (R17). -/
def signBit : Nat := 0x80
/-- SEG_MASK (R17). -/
def segMask : Nat := 0x70
/-- SEG_SHIFT (R17). -/
def segShift : Nat := 4
/-- QUANT_MASK (R17). -/
def quantMask : Nat := 0x0F
/-- A_SHIFT (R17). -/
def aShift : Nat := 3
/-- U_SHIFT (R17). -/
def uShift : Nat := 2
/-- A_OFF0 (R17). -/
def aOff0 : Nat := 8
/-- A_OFF (R17). -/
def aOff : Nat := 0x108
/-- BIAS (R17). -/
def bias : Nat := 0x84
/-- CLIP (R17). -/
def clip : Nat := 8159
/-- NOSEG, the result of locate when no threshold matches (R17). -/
def noSeg : Nat := 8

end Sys2Proof.Machine
end

