-- ==== Sys2Proof/Machine/Operands.lean ====
section
/-! DEFINITION. The fields of a code byte (30_encoding.md R42, R47), shared by the encoders and decoders of both laws. -/
namespace Sys2Proof.Machine

/-- The pre-mask byte from segment and mantissa: (segment << 4) | mantissa (R42). -/
def packFields (seg mant : Nat) : Nat := bitOr (shl seg segShift) mant
/-- The mantissa field of an unmasked byte (R42, R47). -/
def mantField (x : Nat) : Nat := bitAnd x quantMask
/-- The segment field of an unmasked byte, 0..7 (R42, R47). -/
def segField (x : Nat) : Nat := shr (bitAnd x segMask) segShift
/-- Bit 7 of an unmasked byte (R42, R47). -/
def signField (x : Nat) : Bool := bitAnd x signBit != 0

end Sys2Proof.Machine
end

