-- ==== Sys2Proof/Syntax.lean ====
section
/-! DEFINITION. The commands of g711_core, one constructor per row of the operation map (30_encoding.md R50), and the
notation of host programs: command lines (R55) and the two pseudo-operations (R56). -/
namespace Sys2Proof

/-- A decoded command word (R50). The operand bits 15:8 that A2L and U2L ignore (R51) are kept, so that no bit of a
command word is dropped by decoding. -/
inductive Instr where
  /-- op 0, format S: linear sample to A-law code (R70). -/
  | l2a (pcm : Sample)
  /-- op 1, format C: A-law code to linear sample (R80). -/
  | a2l (ignored : BitVec 8) (code : Code)
  /-- op 2, format S: linear sample to µ-law code (R90). -/
  | l2u (pcm : Sample)
  /-- op 3, format C: µ-law code to linear sample (R100). -/
  | u2l (ignored : BitVec 8) (code : Code)
  /-- op 4, format V: segment index by the A-law table (R60). -/
  | loca (value : LocValue)
  /-- op 5, format V: segment index by the µ-law table (R60). -/
  | locu (value : LocValue)
deriving DecidableEq, Repr

/-- The six command mnemonics (R50, R55). -/
inductive Mnemonic where
  | L2A | A2L | L2U | U2L | LOCA | LOCU
deriving DecidableEq, Repr

/-- A command as the spec writes it, MNEMONIC operand, the operand a number (R55). -/
structure CommandLine where
  mnemonic : Mnemonic
  operand : Int
deriving DecidableEq, Repr

/-- A line of a host program: a command (R55) or one of the two pseudo-operations (R56). -/
inductive HostLine where
  | command (c : CommandLine)
  /-- RTA x: encode by A-law, then decode the low byte of the response (R56). -/
  | rta (x : Int)
  /-- RTU x: encode by µ-law, then decode the low byte of the response (R56). -/
  | rtu (x : Int)
deriving DecidableEq, Repr

end Sys2Proof
end

