-- ==== Sys2Proof/WellFormed.lean ====
section
/-! DEFINITION. Which terms the spec admits. Every Instr is well formed: its operand types are the port widths and no
data value is illegal (30_encoding.md R53). A line of a host program writes its operand as a number, and there the
domains of 00_scope.md R4 have to be checked (a number outside them is expressible on no port,
93_implementation_defined.md U5 and U8). -/
namespace Sys2Proof

/-- No data value is illegal or reserved (R53): there is nothing to check beyond the operand's type. -/
def Instr.wf : Instr → Bool
  | .l2a _ => true
  | .a2l _ _ => true
  | .l2u _ => true
  | .u2l _ _ => true
  | .loca _ => true
  | .locu _ => true

/-- The domain of linear2alaw and linear2ulaw: every signed 16-bit value (R4). -/
def sampleInRange (x : Int) : Bool := decide (-32768 ≤ x ∧ x ≤ 32767)
/-- The domain of alaw2linear and ulaw2linear: every unsigned 8-bit value (R4). -/
def codeInRange (x : Int) : Bool := decide (0 ≤ x ∧ x ≤ 255)
/-- What the value port of segment_locator can carry: 16 bits, unsigned (R22, R61). -/
def valueInRange (x : Int) : Bool := decide (0 ≤ x ∧ x ≤ 65535)

/-- The operand of a command line lies in the domain of its operation (R4, R55). -/
def CommandLine.wf (c : CommandLine) : Bool :=
  match c.mnemonic with
  | .L2A => sampleInRange c.operand
  | .A2L => codeInRange c.operand
  | .L2U => sampleInRange c.operand
  | .U2L => codeInRange c.operand
  | .LOCA => valueInRange c.operand
  | .LOCU => valueInRange c.operand

/-- A host line is well formed when the operand of its (first) command is (R55, R56). -/
def HostLine.wf : HostLine → Bool
  | .command c => c.wf
  | .rta x => sampleInRange x
  | .rtu x => sampleInRange x

end Sys2Proof
end

