-- ==== Sys2Proof/Decode.lean ====
section
/-! DEFINITION. The command word of g711_core (30_encoding.md section 4): its fields, the decoder, the encoder, and the
assembler of command lines (R55). -/
namespace Sys2Proof

/-- Why a word is no command. -/
inductive DecodeReject where
  /-- The op field holds 0b110 or 0b111, which the spec reserves (R52). -/
  | reservedOp (op : Op)
  /-- The number has a bit above bit 18: the cmd port carries 19 bits (R27, R50). -/
  | widerThanCommandWord (w : Nat)
deriving DecidableEq, Repr

/-- Bits 18:16 (R50). -/
def opField (w : Cmd) : Op := w.extractLsb' 16 3
/-- Bits 15:0 (R50). -/
def operandField (w : Cmd) : Operand := w.extractLsb' 0 16
/-- operand[7:0], all that format C uses (R50, R51). -/
def lowByte (x : BitVec 16) : BitVec 8 := x.extractLsb' 0 8
/-- operand[15:8], ignored by format C (R51). -/
def highByte (x : BitVec 16) : BitVec 8 := x.extractLsb' 8 8

/-- An operand from its two bytes. -/
def joinBytes (high low : BitVec 8) : Operand := high ++ low

/-- A command word from its two fields (R50). -/
def commandWord (op : Op) (operand : Operand) : Cmd := op ++ operand

/-- The operation map (R50): op selects the operation, the operand is taken in the operation's format. -/
def decode (w : Cmd) : Except DecodeReject Instr :=
  match (opField w).toNat with
  | 0 => .ok (.l2a (operandField w))
  | 1 => .ok (.a2l (highByte (operandField w)) (lowByte (operandField w)))
  | 2 => .ok (.l2u (operandField w))
  | 3 => .ok (.u2l (highByte (operandField w)) (lowByte (operandField w)))
  | 4 => .ok (.loca (operandField w))
  | 5 => .ok (.locu (operandField w))
  | _ => .error (.reservedOp (opField w))

/-- The decoder on any number: a command word has one length, 19 bits (R50, R54). -/
def decodeNat (w : Nat) : Except DecodeReject Instr :=
  if w < 2 ^ Config.cmdWidth then decode (BitVec.ofNat Config.cmdWidth w) else .error (.widerThanCommandWord w)

/-- The instruction the decoder reads from a word numbered as spec/opcode_table.json numbers it. A command word is no
byte sequence (20_memory.md R32), so the word itself is decoded; the bits above the row's are zero and change nothing. -/
def decodeTableWord (_nbits w : Nat) : Option Instr :=
  match decodeNat w with
  | .ok i => some i
  | .error _ => none

/-- The op value of an operation, from the operation map (R50). -/
def opNumber : Instr → Op
  | .l2a _ => 0
  | .a2l _ _ => 1
  | .l2u _ => 2
  | .u2l _ _ => 3
  | .loca _ => 4
  | .locu _ => 5

/-- The operand field of an instruction, by its format (R50). -/
def operandBits : Instr → Operand
  | .l2a pcm => pcm
  | .a2l ignored code => joinBytes ignored code
  | .l2u pcm => pcm
  | .u2l ignored code => joinBytes ignored code
  | .loca value => value
  | .locu value => value

/-- The command word of an instruction (R50). -/
def encode (i : Instr) : Cmd := commandWord (opNumber i) (operandBits i)

/-- The op value of a mnemonic (R50). -/
def Mnemonic.op : Mnemonic → Op
  | .L2A => 0
  | .A2L => 1
  | .L2U => 2
  | .U2L => 3
  | .LOCA => 4
  | .LOCU => 5

/-- The command word of a command line, ignored bits written as zero (R55); none where the operand is outside the
operation's domain. -/
def assemble (c : CommandLine) : Option Cmd :=
  if c.wf then some (commandWord c.mnemonic.op (BitVec.ofInt 16 c.operand)) else none

end Sys2Proof
end

