-- ==== Sys2Proof/Machine/State.lean ====
section
/-! DEFINITION. The state: the values on the two ports of g711_core and the host's own list. The hardware itself holds
no mutable state (10_state.md R10); the port values and the list are there so that an evaluation is a step and a program
in the sense of 92_eei_decisions.md D17 can run (log 1). -/
namespace Sys2Proof.Machine

/-- Why the machine stops with a fault: never. "The set of synchronous exceptions is empty" (60_exceptions.md R110), so
there is no constructor, nobody raises one, and a step that faults cannot be written down. -/
inductive Fault where
deriving DecidableEq, Repr

/-- Why a step has no meaning. Each is safe: the model stops where the spec gives no effect. -/
inductive Refusal where
  /-- An instruction not modelled yet, by its mnemonic. Nobody raises it: every arm of exec has its meaning. Safe. -/
  | notModelled (mnemonic : String)
  /-- The presented word is no command: its op is reserved (R52). Raised by step. Safe. -/
  | rejected (why : DecodeReject)
  /-- The host's list copies bits of a response it has not read (log 7). Raised by step. Safe. -/
  | noSuchResponse (back : Nat)
deriving DecidableEq, Repr

/-- Which bits of a response the host copies into an operand (R56; program P3 of 95_test_vectors.md). -/
inductive CopiedBits where
  /-- zext_16(r[7:0]), as RTA and RTU carry a code (R56). -/
  | lowByte
  /-- The whole 16-bit response, as a sample is carried to the other law's encoder (program P3). -/
  | wholeWord
deriving DecidableEq, Repr

/-- One entry of the host's list of evaluations (10_state.md R13, D17). -/
inductive Presented where
  /-- Present this command word. -/
  | word (w : Cmd)
  /-- Present op with bits of an earlier response as the operand (R56); back = 0 is the latest response. -/
  | copied (op : Op) (back : Nat) (bits : CopiedBits)
deriving DecidableEq, Repr

/-- "One evaluation is one pair (operand value, result value)" (R12), here on the wrapper's ports. -/
structure Evaluation where
  cmd : Cmd
  resp : Resp
deriving DecidableEq, Repr

/-- The ports of g711_core and the host's list. -/
structure State where
  /-- The value on the input port cmd (R27). -/
  cmd : Cmd
  /-- The value on the output port resp (R27, R51). -/
  resp : Resp
  /-- What the host has still to present, first entry next; the host's, invisible to the block (R13). -/
  pending : List Presented
  /-- The evaluations the host has made, newest first; the host's (D17). -/
  evaluations : List Evaluation
deriving DecidableEq, Repr

/-- The machine before the host presents anything. There is no reset and no state to initialise (R125, R29): the word
0x00000 on cmd is a DESIGN CHOICE (log 2), resp carries the function of it (R12; log 3), the host's lists are empty (log 4). -/
def State.reset : State :=
  { cmd := 0x00000, resp := 0x00D5, pending := [], evaluations := [] }

end Sys2Proof.Machine
end

