-- ==== Sys2Proof/Machine/Ops.lean ====
section
/-! DEFINITION. The operations on the state that every instruction shares. There is no memory and no register file
(20_memory.md R30, 10_state.md R11) and no exception to take or return from (60_exceptions.md R110, R113, R114), so these
are the ports and the host's list. -/
namespace Sys2Proof.Machine

/-- The selected block drives the response port (R51); nothing else changes (R10). -/
def State.drive (s : State) (r : Resp) : State := { s with resp := r }

/-- The host presents w on the command port; rest is what is left of its list (R13, R129). -/
def State.present (s : State) (w : Cmd) (rest : List Presented) : State := { s with cmd := w, pending := rest }

/-- The host reads the response belonging to the presented command (R131) and keeps the pair (R12, D17). -/
def State.record (s : State) : State := { s with evaluations := ⟨s.cmd, s.resp⟩ :: s.evaluations }

/-- The operand the host makes of a response's bits (R56). -/
def CopiedBits.take : CopiedBits → Resp → Operand
  | .lowByte, r => (Sys2Proof.lowByte r).setWidth 16
  | .wholeWord, r => r

/-- The command word an entry of the host's list stands for; none where it copies a response that does not exist. -/
def Presented.word? (es : List Evaluation) : Presented → Option Cmd
  | .word w => some w
  | .copied op back bits => es[back]?.map fun e => commandWord op (bits.take e.resp)

/-- What the host does next. -/
inductive Fetched where
  /-- The host's list is at its end (R129). -/
  | idle
  /-- The next entry copies a response that does not exist. -/
  | missing (back : Nat)
  /-- The next entry stands for this word; rest is what is left of the list. -/
  | command (w : Cmd) (rest : List Presented)
deriving DecidableEq, Repr

/-- The next entry of the host's list as a command word (R13, R56). -/
def fetch (s : State) : Fetched :=
  match s.pending with
  | [] => .idle
  | .word w :: rest => .command w rest
  | .copied op back bits :: rest =>
    match Presented.word? s.evaluations (.copied op back bits) with
    | none => .missing back
    | some w => .command w rest

/-- With nothing to present the host leaves the input as it is, and so every port keeps its value (R12, R3; log 5). -/
def idle (s : State) : Host.Outcome State Fault Refusal := .next s

/-- The host reads the response of an evaluation that has one. -/
def recorded : Host.Outcome State Fault Refusal → Host.Outcome State Fault Refusal
  | .next s => .next s.record
  | .fault f => .fault f
  | .refused r => .refused r

/-- Put a command word at the head of the host's list. -/
def State.enqueue (s : State) (w : Cmd) : State := { s with pending := .word w :: s.pending }

end Sys2Proof.Machine
end

