-- ==== Sys2Proof/Machine/SegmentLocator.lean ====
section
/-! DEFINITION. The segment_locator block (40_segment_locator.md) and the two locate commands. -/
namespace Sys2Proof.Machine

/-- The scan of R60 over the entries that are left, i the index of the first of them: the first entry that value does
not exceed, or one past the last index. -/
def scan (value : Nat) : List Nat → Nat → Nat
  | [], i => i
  | t :: ts, i => if value ≤ t then i else scan value ts (i + 1)

/-- locate(value, T) (R60), on a natural number (R61) and any eight naturals (R62). -/
def locate (value : Nat) (T : Table) : Nat := scan value T.toList 0

/-- The block segment_locator with table T, port to port (R22). -/
def segmentLocator (T : Table) (value : LocValue) : SegIndex := bits4 (locate value.toNat T)

/-- LOCA: the segment index by the A-law table (R60, R51). -/
def execLoca (value : LocValue) (s : State) : Host.Outcome State Fault Refusal :=
  .next (s.drive (zext16 (segmentLocator aTab value)))

/-- LOCU: the segment index by the µ-law table (R60, R51). -/
def execLocu (value : LocValue) (s : State) : Host.Outcome State Fault Refusal :=
  .next (s.drive (zext16 (segmentLocator uTab value)))

end Sys2Proof.Machine
end

