-- ==== Sys2Proof/Machine/ALaw.lean ====
section
/-! DEFINITION. The A-law blocks: g711_alaw_encoder (41_alaw_encoder.md) and g711_alaw_decoder (42_alaw_decoder.md), and
the commands L2A and A2L. The intermediate values carry the names of R28. -/
namespace Sys2Proof.Machine

/-- R70 step 1: v. -/
def alawShifted (pcm : Int) : Int := asr pcm aShift
/-- R70 step 2: the inversion mask, by the sign of v (R46). -/
def alawMask (v : Int) : Nat := if v ≥ 0 then aMaskPos else aMaskNeg
/-- R70 step 2: the magnitude, v or -v - 1. -/
def alawMag (v : Int) : Nat := if v ≥ 0 then v.toNat else (-v - 1).toNat
/-- R70 step 5: the mantissa (R45). -/
def alawMant (mag seg : Nat) : Nat := if seg < 2 then bitAnd (shr mag 1) quantMask else bitAnd (shr mag seg) quantMask
/-- R70 steps 3 to 5: the byte before the mask; step 4 stays although no 16-bit sample takes it (R71). -/
def alawPreMask (mag : Nat) : Nat :=
  let seg := locate mag aTab
  if seg ≥ 8 then satCode else packFields seg (alawMant mag seg)

/-- linear2alaw(pcm) (R70). -/
def linear2alaw (pcm : Int) : Nat :=
  let v := alawShifted pcm
  bitXor (alawPreMask (alawMag v)) (alawMask v)

/-- R80 steps 2 and 3 on the unmasked byte x: t before the sign is applied. -/
def alawReconstruct (x : Nat) : Nat :=
  let t := shl (mantField x) 4
  let seg := segField x
  if seg = 0 then t + aOff0 else if seg = 1 then t + aOff else shl (t + aOff) (seg - 1)

/-- alaw2linear(code) (R80). -/
def alaw2linear (code : Nat) : Int :=
  let x := bitXor code aMaskNeg
  let t := alawReconstruct x
  if signField x then (t : Int) else -(t : Int)

/-- The block g711_alaw_encoder, port to port (R23). -/
def alawEncoder (pcmIn : Sample) : Code := bits8 (linear2alaw (sint16 pcmIn))
/-- The block g711_alaw_decoder, port to port (R24). -/
def alawDecoder (codeIn : Code) : Sample := bits16 (alaw2linear codeIn.toNat)

/-- L2A: one sample to one A-law code, zero-extended (R70, R51). -/
def execL2a (pcm : Sample) (s : State) : Host.Outcome State Fault Refusal :=
  .next (s.drive (zext16 (alawEncoder pcm)))

/-- A2L: one A-law code to one sample; operand[15:8] has no effect (R80, R51). -/
def execA2l (_ignored : BitVec 8) (code : Code) (s : State) : Host.Outcome State Fault Refusal :=
  .next (s.drive (alawDecoder code))

end Sys2Proof.Machine
end

