-- ==== Sys2Proof/Machine/ULaw.lean ====
section
/-! DEFINITION. The µ-law blocks: g711_ulaw_encoder (43_ulaw_encoder.md) and g711_ulaw_decoder (44_ulaw_decoder.md), and
the commands L2U and U2L. The intermediate values carry the names of R28. -/
namespace Sys2Proof.Machine

/-- R90 step 1: v. -/
def ulawShifted (pcm : Int) : Int := asr pcm uShift
/-- R90 step 2: the mask, by the sign of v (R46). -/
def ulawMask (v : Int) : Nat := if v < 0 then uMaskNeg else uMaskPos
/-- R90 step 2: the magnitude, by plain negation. -/
def ulawMag (v : Int) : Nat := if v < 0 then (-v).toNat else v.toNat
/-- R90 step 3: a greater-than clip to an inclusive maximum. -/
def ulawClip (mag : Nat) : Nat := if mag > clip then clip else mag
/-- R90 step 4: the quarter bias, BIAS >> 2 = 33. -/
def ulawBias (mag : Nat) : Nat := mag + shr bias 2
/-- R90 step 7: the mantissa (R45). -/
def ulawMant (mag seg : Nat) : Nat := bitAnd (shr mag (seg + 1)) quantMask
/-- R90 steps 5 to 7 on the biased magnitude: the byte before the mask. -/
def ulawPreMask (mag : Nat) : Nat :=
  let seg := locate mag uTab
  if seg ≥ 8 then satCode else packFields seg (ulawMant mag seg)

/-- linear2ulaw(pcm) (R90). -/
def linear2ulaw (pcm : Int) : Nat :=
  let v := ulawShifted pcm
  bitXor (ulawPreMask (ulawBias (ulawClip (ulawMag v)))) (ulawMask v)

/-- R100 steps 2 and 3 on the complemented byte y: t. -/
def ulawReconstruct (y : Nat) : Nat := shl (shl (mantField y) 3 + bias) (segField y)

/-- ulaw2linear(code) (R100). -/
def ulaw2linear (code : Nat) : Int :=
  let y := not8 code
  let t := ulawReconstruct y
  if signField y then (bias : Int) - t else (t : Int) - bias

/-- The block g711_ulaw_encoder, port to port (R25). -/
def ulawEncoder (pcmIn : Sample) : Code := bits8 (linear2ulaw (sint16 pcmIn))
/-- The block g711_ulaw_decoder, port to port (R26). -/
def ulawDecoder (codeIn : Code) : Sample := bits16 (ulaw2linear codeIn.toNat)

/-- L2U: one sample to one µ-law code, zero-extended (R90, R51). -/
def execL2u (pcm : Sample) (s : State) : Host.Outcome State Fault Refusal :=
  .next (s.drive (zext16 (ulawEncoder pcm)))

/-- U2L: one µ-law code to one sample; operand[15:8] has no effect (R100, R51). -/
def execU2l (_ignored : BitVec 8) (code : Code) (s : State) : Host.Outcome State Fault Refusal :=
  .next (s.drive (ulawDecoder code))

end Sys2Proof.Machine
end

