-- ==== Sys2Proof/Machine/Wrapper.lean ====
section
/-! DEFINITION. The wrapper g711_core as the combinational block it is: resp as a function of cmd alone (10_state.md R27,
30_encoding.md R51). It is written from R51, beside the decoder and exec, so that the two can be held against each other. -/
namespace Sys2Proof.Machine

/-- R51: the response word; none where op is reserved and the result is not defined (R52). -/
def g711Core (cmd : Cmd) : Option Resp :=
  let op := (cmd.extractLsb' 16 3).toNat
  let operand : Operand := cmd.extractLsb' 0 16
  if op = 0 then some (zext16 (alawEncoder operand))
  else if op = 1 then some (alawDecoder (operand.extractLsb' 0 8))
  else if op = 2 then some (zext16 (ulawEncoder operand))
  else if op = 3 then some (ulawDecoder (operand.extractLsb' 0 8))
  else if op = 4 then some (zext16 (segmentLocator aTab operand))
  else if op = 5 then some (zext16 (segmentLocator uTab operand))
  else none

end Sys2Proof.Machine
end

