-- ==== Sys2Proof/Machine/Dispatch.lean ====
section
/-! DEFINITION. One arm per command (30_encoding.md R50). -/
namespace Sys2Proof.Machine

def exec (i : Instr) (s : State) : Host.Outcome State Fault Refusal :=
  match i with
  | .l2a pcm => Sys2Proof.Machine.execL2a pcm s
  | .a2l ignored code => Sys2Proof.Machine.execA2l ignored code s
  | .l2u pcm => Sys2Proof.Machine.execL2u pcm s
  | .u2l ignored code => Sys2Proof.Machine.execU2l ignored code s
  | .loca value => Sys2Proof.Machine.execLoca value s
  | .locu value => Sys2Proof.Machine.execLocu value s

end Sys2Proof.Machine
end

