-- ==== Sys2Proof/Machine/Step.lean ====
section
/-! DEFINITION. One step is one evaluation on g711_core: the host presents the next word of its list, the selected block
answers, the host reads the response (10_state.md R12, R13; 70_reset_and_hazards.md R129, R131; log 9). -/
namespace Sys2Proof.Machine

/-- Present, decode, execute, read. A word the decoder rejects has no meaning and is refused (R52). -/
def step (s : State) : Host.Outcome State Fault Refusal :=
  match fetch s with
  | .idle => idle s
  | .missing back => .refused (.noSuchResponse back)
  | .command w rest =>
    match decode w with
    | .error why => .refused (.rejected why)
    | .ok i => recorded (exec i (s.present w rest))

/-- s with the command word w at the head of the host's list, so that the next step presents and runs it: the load of a
program from outside (log 4). -/
def State.withFetchWord (s : State) (_nbits w : Nat) : State := s.enqueue (BitVec.ofNat Config.cmdWidth w)

end Sys2Proof.Machine
end

