-- ==== Sys2Proof/Machine/Datapath16.lean ====
section
/-! DEFINITION. A second design of the four codec blocks: every value a 16-bit word, the shift a sign-copying shift, the
locator eight comparisons and the lowest true one. 00_scope.md R9 says that evaluating the steps in signed 16-bit gives
the same result as in unbounded integers, and 40_segment_locator.md R65 that the parallel form gives the same index; claims
compare this design with the blocks of ALaw.lean and ULaw.lean. It is no part of the machine: step never calls it. -/
namespace Sys2Proof.Machine.Datapath16

/-- The eight comparisons made at once and the lowest true one taken (R65), on the unsigned value port (R22); eight
thresholds, each twice its predecessor and one more, the first given (R15, R16). -/
def priorityLocate (first v : BitVec 16) : BitVec 16 :=
  let le (i : Nat) : Bool := v.ule (((first + 1) <<< i) - 1)
  if le 0 then 0 else if le 1 then 1 else if le 2 then 2 else if le 3 then 3
  else if le 4 then 4 else if le 5 then 5 else if le 6 then 6 else if le 7 then 7 else 8

/-- linear2alaw in signed 16-bit words (R70, R9). -/
def alawEncoder (pcm : BitVec 16) : BitVec 8 :=
  let v := pcm.sshiftRight 3
  let mask : BitVec 16 := if v.slt 0 then 0x55 else 0xD5
  let mag := if v.slt 0 then -v - 1 else v
  let seg := priorityLocate 0x1F mag
  let pre := if seg.slt 8 then (seg <<< 4) ||| (if seg.slt 2 then (mag >>> 1) &&& 0x0F else (mag >>> seg) &&& 0x0F) else 0x7F
  (pre ^^^ mask).setWidth 8

/-- linear2ulaw in signed 16-bit words (R90, R9). -/
def ulawEncoder (pcm : BitVec 16) : BitVec 8 :=
  let v := pcm.sshiftRight 2
  let mask : BitVec 16 := if v.slt 0 then 0x7F else 0xFF
  let mag := if v.slt 0 then -v else v
  let mag := (if (8159 : BitVec 16).slt mag then 8159 else mag) + 33
  let seg := priorityLocate 0x3F mag
  let pre := if seg.slt 8 then (seg <<< 4) ||| ((mag >>> (seg + 1)) &&& 0x0F) else 0x7F
  (pre ^^^ mask).setWidth 8

/-- alaw2linear in signed 16-bit words (R80, R9). -/
def alawDecoder (code : BitVec 8) : BitVec 16 :=
  let x := (code.setWidth 16 : BitVec 16) ^^^ 0x55
  let t := (x &&& 0x0F) <<< 4
  let seg := (x &&& 0x70) >>> 4
  let t := if seg = 0 then t + 8 else if seg = 1 then t + 0x108 else (t + 0x108) <<< (seg - 1)
  if x &&& 0x80 = 0 then -t else t

/-- ulaw2linear in signed 16-bit words (R100, R9). -/
def ulawDecoder (code : BitVec 8) : BitVec 16 :=
  let y : BitVec 16 := (~~~code).setWidth 16
  let t := (((y &&& 0x0F) <<< 3) + 132) <<< ((y &&& 0x70) >>> 4)
  if y &&& 0x80 = 0 then t - 132 else 132 - t

end Sys2Proof.Machine.Datapath16
end

