-- ==== Sys2Proof/Machine/Program.lean ====
section
/-! DEFINITION. Host programs: what a line of the spec's notation (30_encoding.md R55, R56) puts on the host's list. -/
namespace Sys2Proof.Machine

/-- The two commands of a round trip: the encode command, then the decode command with zext_16(r1[7:0]) (R56). -/
def roundTrip (encodeLine : CommandLine) (decodeOp : Op) : Option (List Presented) :=
  (assemble encodeLine).map fun w => [.word w, .copied decodeOp 0 .lowByte]

/-- A command is its word (R55); RTA x is L2A x then A2L of the response's low byte, RTU x the same with L2U and U2L
(R56). None where the operand is outside the operation's domain. -/
def expand : HostLine → Option (List Presented)
  | .command c => (assemble c).map fun w => [.word w]
  | .rta x => roundTrip ⟨.L2A, x⟩ (Mnemonic.op .A2L)
  | .rtu x => roundTrip ⟨.L2U, x⟩ (Mnemonic.op .U2L)

/-- A whole program, line by line (D17). -/
def expandAll : List HostLine → Option (List Presented)
  | [] => some []
  | l :: ls => (expand l).bind fun ps => (expandAll ls).map fun qs => ps ++ qs

end Sys2Proof.Machine
end

