-- ==== Sys2Proof/Safety.lean ====
section
/-! DEFINITION. What counts as a sound state and a safe run, and the closed forms in which the spec's rules about the
codecs are stated (interval ends, steps and midpoints of R73, R81, R94, R101; round trips of R56). -/
namespace Sys2Proof.Safety
open Sys2Proof.Machine

/-- The output port carries the wrapper's function of the value then on the input port (10_state.md R12, R27). -/
abbrev Settled (s : State) : Prop := g711Core s.cmd = some s.resp

/-- A recorded pair is an evaluation of the wrapper (R12). -/
abbrev Sound (e : Evaluation) : Prop := g711Core e.cmd = some e.resp

/-- Ports settled, and every pair the host has recorded is an evaluation of the wrapper. -/
structure Inv (s : State) : Prop where
  settled : Settled s
  sound : ∀ e ∈ s.evaluations, Sound e

/-- op in 0..5, what the host must present on g711_core (70_reset_and_hazards.md R129, 30_encoding.md R52). -/
def legalOp (op : Op) : Bool := decide (op.toNat < 6)

/-- The host keeps its one obligation (R129) and copies only responses it has: n of them so far. -/
def obeys : Nat → List Presented → Bool
  | _, [] => true
  | n, .word w :: rest => legalOp (opField w) && obeys (n + 1) rest
  | n, .copied op back _ :: rest => legalOp op && decide (back < n) && obeys (n + 1) rest

/-- Every word the host has still to present is a command, and every copy has its response. -/
abbrev HostObeys (s : State) : Prop := obeys s.evaluations.length s.pending = true

/-- The evaluation of a command word, whatever the state: the pair of R12. -/
def evaluationOf (w : Cmd) : Option Evaluation := (g711Core w).map fun r => ⟨w, r⟩

end Sys2Proof.Safety

namespace Sys2Proof.Spec
open Sys2Proof.Machine

/-- A strictly ascending table (40_segment_locator.md R62). -/
abbrev Ascending (T : Table) : Prop := ∀ i j : Fin 8, i < j → T[i] < T[j]

/-- The number of bits of n (R63). -/
def bitlen (n : Nat) : Nat := if n = 0 then 0 else Nat.log2 n + 1

/-- The domain of the encoders: every signed 16-bit value (00_scope.md R4). -/
abbrev IsSample (x : Int) : Prop := -32768 ≤ x ∧ x ≤ 32767

/-- The full map of R64 for ATAB. -/
def aSegment (value : Nat) : Nat :=
  if value ≤ 31 then 0 else if value ≤ 63 then 1 else if value ≤ 127 then 2 else if value ≤ 255 then 3
  else if value ≤ 511 then 4 else if value ≤ 1023 then 5 else if value ≤ 2047 then 6 else if value ≤ 4095 then 7 else 8

/-- The full map of R64 for UTAB. -/
def uSegment (value : Nat) : Nat :=
  if value ≤ 63 then 0 else if value ≤ 127 then 1 else if value ≤ 255 then 2 else if value ≤ 511 then 3
  else if value ≤ 1023 then 4 else if value ≤ 2047 then 5 else if value ≤ 4095 then 6 else if value ≤ 8191 then 7 else 8

/-- Operands per A-law code of a segment: 16, 16, 32, .., 1024 (R73). -/
def alawStep (seg : Nat) : Int := if seg = 0 then 16 else 2 ^ (seg + 3)
/-- The lowest non-negative operand of the A-law code (seg, m) (R73). -/
def alawLow (seg m : Nat) : Int := if seg = 0 then 16 * m else (16 + m) * 2 ^ (seg + 3)
/-- The A-law reconstruction magnitude of (seg, m) (R81). -/
def alawMid (seg m : Nat) : Int := if seg = 0 then 16 * m + 8 else (16 + m) * 2 ^ (seg + 3) + 2 ^ (seg + 2)

/-- Operands per µ-law code of a segment: 8, 16, .., 1024 (R94). -/
def ulawStep (seg : Nat) : Int := 2 ^ (seg + 3)
/-- lo(s, m) of R94. -/
def ulawLow (seg m : Nat) : Int := (16 + m) * 2 ^ (seg + 3) - 132
/-- The µ-law reconstruction magnitude of (seg, m) (R101). -/
def ulawMid (seg m : Nat) : Int := (16 + m) * 2 ^ (seg + 3) + 2 ^ (seg + 2) - 132

/-- alaw2linear(linear2alaw(x)), what RTA computes (R56). -/
def rta (x : Int) : Int := alaw2linear (linear2alaw x)
/-- ulaw2linear(linear2ulaw(x)), what RTU computes (R56). -/
def rtu (x : Int) : Int := ulaw2linear (linear2ulaw x)

/-- The segment of the A-law code of x, as its decoder reads it (R47). -/
def alawSegOf (x : Int) : Nat := segField (bitXor (linear2alaw x) aMaskNeg)
/-- The segment of the µ-law code of x, as its decoder reads it (R47). -/
def ulawSegOf (x : Int) : Nat := segField (not8 (linear2ulaw x))

/-- The A-law magnitude of a sample (R70 steps 1 and 2). -/
def alawMagOf (pcm : Int) : Nat := alawMag (alawShifted pcm)
/-- The µ-law magnitude of a sample before the clip (R90 steps 1 and 2). -/
def ulawMagOf (pcm : Int) : Nat := ulawMag (ulawShifted pcm)
/-- The µ-law magnitude of a sample after the bias (R90 steps 1 to 4). -/
def ulawBiasedOf (pcm : Int) : Nat := ulawBias (ulawClip (ulawMagOf pcm))

end Sys2Proof.Spec
end

