-- ==== Sys2Proof/Certificates/Slice0/Obligations.lean ====
section
/-! DEFINITION. The statements. Each docstring names the sentence of spec/ it formalises; where the spec marks a rule as
its own inference ("[derived: from rule ..]") the docstring says so and the statement's basis is derived. -/
open Sys2Proof Sys2Proof.Machine Sys2Proof.Safety Sys2Proof.Spec

/-- Words written out bit by bit from the operation map of 30_encoding.md section 4 (the examples are those of R55 and of
95_test_vectors.md) decode to the instruction they stand for. The field that holds the byte A2L and U2L ignore, zero in
these words, is the model's choice (log 8). -/
def Obligations.OperationMapWordsDecode : Prop :=
  decode 0b000_1111111111111111 = .ok (.l2a (-1)) ∧ decode 0b001_00000000_11111010 = .ok (.a2l 0 0xFA) ∧
  decode 0b010_0000001111101000 = .ok (.l2u 1000) ∧ decode 0b011_00000000_11111111 = .ok (.u2l 0 0xFF) ∧
  decode 0b100_0000000000100000 = .ok (.loca 32) ∧ decode 0b101_0010000000000000 = .ok (.locu 8192) ∧
  decode 0b110_0000000000000000 = .error (.reservedOp 6) ∧ decode 0b111_1111111111111111 = .error (.reservedOp 7)

/-- R50: the six rows as match and mask over the 19-bit word (mask 0x70000 for every row), the operand bits each row
uses, and the two values left over. That decoding keeps the bits 15:8 which A2L and U2L do not use, as the instruction's
first field, is the model's choice (log 8): R50 gives those rows bits 7:0 alone. -/
def Obligations.MatchAndMaskSelectTheOperation : Prop :=
  ∀ w : Cmd,
    let operand := w.extractLsb' 0 16
    (w &&& 0x70000 = 0x00000 → decode w = .ok (.l2a operand)) ∧
    (w &&& 0x70000 = 0x10000 → decode w = .ok (.a2l (operand.extractLsb' 8 8) (operand.extractLsb' 0 8))) ∧
    (w &&& 0x70000 = 0x20000 → decode w = .ok (.l2u operand)) ∧
    (w &&& 0x70000 = 0x30000 → decode w = .ok (.u2l (operand.extractLsb' 8 8) (operand.extractLsb' 0 8))) ∧
    (w &&& 0x70000 = 0x40000 → decode w = .ok (.loca operand)) ∧
    (w &&& 0x70000 = 0x50000 → decode w = .ok (.locu operand)) ∧
    (w &&& 0x70000 = 0x60000 → decode w = .error (.reservedOp 6)) ∧
    (w &&& 0x70000 = 0x70000 → decode w = .error (.reservedOp 7))

/-- Decode of encode is the instruction, for every instruction and every operand value. That A2L and U2L have the byte
they ignore as an operand, given back like the rest, is the model's choice (log 8). -/
def Obligations.DecodeOfEncodeIsTheInstruction : Prop :=
  ∀ i : Instr, i.wf = true → decode (encode i) = .ok i

/-- Where a word decodes, encoding gives the word back: no bit of a command word is dropped. That the bits 15:8 which A2L
and U2L ignore are kept too is the model's choice (log 8): the spec only says that they have no effect. -/
def Obligations.EncodeOfDecodeIsTheWord : Prop :=
  ∀ (w : Cmd) (i : Instr), decode w = .ok i → encode i = w

/-- Every operand value is legal for every operation and the decoder accepts it (30_encoding.md section 5). That it keeps
all of the operand, the byte that A2L and U2L ignore too, is the model's choice (log 8). -/
def Obligations.EveryDataValueIsALegalOperand : Prop :=
  ∀ (op : Op) (operand : Operand), op.toNat < 6 →
    ∃ i, decode (commandWord op operand) = .ok i ∧ opNumber i = op ∧ operandBits i = operand

/-- A presented command word, whichever entry of the host's list it comes from, is refused for any reason at all exactly
when its op is 0b110 or 0b111, and the reason given is then the reserved op (30_encoding.md section 5); it is never given a
fault (Fault has no constructor). How the host presents a word, and the copied entries, are the model's choice (log 1,
log 7); that a refusal ends the run is too (log 6). -/
def Obligations.ReservedOpsAreRefused : Prop :=
  ∀ (s : State) (p : Presented) (rest : List Presented) (w : Cmd),
    s.pending = p :: rest → Presented.word? s.evaluations p = some w →
    let op := w.extractLsb' 16 3
    ((∃ r, step s = .refused r) ↔ op = 0b110 ∨ op = 0b111) ∧
    (op = 0b110 ∨ op = 0b111 → step s = .refused (.rejected (.reservedOp op))) ∧
    ∀ f, step s ≠ .fault f

/-- A step runs the decoded instruction: when the next entry of the host's list stands for a word that decodes to i, step
is exec of i with the word on the command port and the entry taken off the list, and the pair of command and response
recorded. What step adds around exec is the model's (log 1, log 9). -/
def Obligations.StepRunsTheDecodedInstruction : Prop :=
  ∀ (s t : State) (p : Presented) (rest : List Presented) (w : Cmd) (i : Instr),
    s.pending = p :: rest → Presented.word? s.evaluations p = some w → decode w = .ok i →
    exec i { s with cmd := w, pending := rest } = .next t →
    step s = .next { t with evaluations := ⟨t.cmd, t.resp⟩ :: t.evaluations }

/-- With nothing left to present, a step changes nothing. The model's choice (log 5): the host holds the input. -/
def Obligations.StepWithEmptyListKeepsThePorts : Prop :=
  ∀ s : State, s.pending = [] → step s = .next s

/-- All of a step's effect when the next entry of the host's list, a plain word or a copied one, stands for the command
word w: the response is what g711_core computes from w alone (30_encoding.md section 4), nothing depends on operand[15:8]
for A2L and U2L. That the entry is taken off the host's list and the pair recorded is the model's choice (log 1, log 9), as
are the copied entries (log 7). -/
def Obligations.StepAnswersTheWrapperFunction : Prop :=
  ∀ (s : State) (p : Presented) (rest : List Presented) (w : Cmd),
    s.pending = p :: rest → Presented.word? s.evaluations p = some w →
    let op := (w.extractLsb' 16 3).toNat
    let operand := w.extractLsb' 0 16
    let answers (r : Resp) : Prop := step s = .next ⟨w, r, rest, ⟨w, r⟩ :: s.evaluations⟩
    (op = 0 → answers (BitVec.ofNat 16 (linear2alaw operand.toInt))) ∧
    (op = 1 → answers (BitVec.ofInt 16 (alaw2linear (operand.toNat % 256)))) ∧
    (op = 2 → answers (BitVec.ofNat 16 (linear2ulaw operand.toInt))) ∧
    (op = 3 → answers (BitVec.ofInt 16 (ulaw2linear (operand.toNat % 256)))) ∧
    (op = 4 → answers (BitVec.ofNat 16 (locate operand.toNat aTab))) ∧
    (op = 5 → answers (BitVec.ofNat 16 (locate operand.toNat uTab))) ∧
    (op = 6 ∨ op = 7 → ∀ t, step s ≠ .next t)

/-- R3 and R4: every instruction completes in every state, its response depends on its operand alone (not on the state,
so not on what was evaluated before), and it changes nothing but the response port. -/
def Obligations.ExecDrivesTheResponseFromTheOperandAlone : Prop :=
  ∀ i : Instr, ∃ r : Resp, ∀ s : State, exec i s = .next { s with resp := r }

/-- "At every moment each output port carries the function of the block applied to the value then on its input ports"
(10_state.md section 1): every step keeps the ports settled and every recorded pair an evaluation of g711_core. -/
def Obligations.EveryStepKeepsPortsSettledAndRecordsSound : Prop :=
  ∀ s s' : State, Inv s → step s = .next s' → Inv s'

/-- The invariant holds before the host presents anything. The word on cmd is the model's choice (log 2, log 3). -/
def Obligations.ResetPortsSettled : Prop := Inv State.reset

/-- The host's lists are empty at reset and the response belongs to the word on the command port. The model's choice
(log 2, log 3, log 4): the spec has no reset and no state. -/
def Obligations.ResetHoldsNoHistory : Prop :=
  State.reset.pending = [] ∧ State.reset.evaluations = [] ∧ State.reset.cmd = 0 ∧
  State.reset.resp = BitVec.ofNat 16 (linear2alaw 0)

/-- A host that keeps its obligations (70_reset_and_hazards.md section 3: op in 0..5; and it copies only responses it
has, log 7) is never stopped: each step answers a next state, in which the obligations are kept again. -/
def Obligations.ObligingHostIsNeverStopped : Prop :=
  ∀ s : State, HostObeys s → ∃ s', step s = .next s' ∧ HostObeys s'

/-- Order and repetition change no result (20_memory.md section 3): from any state, presenting the words of any list of
evaluations of g711_core, in the list's order, records exactly those evaluations, and leaves the rest of the host's list.
Recording the pairs and placing the words on the host's list are the model's choice (log 1, log 4). -/
def Obligations.RunRecordsEachWordsOwnEvaluation : Prop :=
  ∀ (s : State) (es : List Evaluation) (rest : List Presented), (∀ e ∈ es, Sound e) →
    ∃ t : State, Sys2Proof.core.run es.length { s with pending := es.map (fun e => .word e.cmd) ++ rest } = .next t ∧
      t.pending = rest ∧ t.evaluations = es.reverse ++ s.evaluations

/-- The two tables of 10_state.md section 2 (their closed forms are the spec's own inference): each entry as listed,
strictly ascending, the µ-law table the A-law table moved up one place. -/
def Obligations.TablesAreTheListedThresholds : Prop :=
  aTab.toList = [31, 63, 127, 255, 511, 1023, 2047, 4095] ∧ uTab.toList = [63, 127, 255, 511, 1023, 2047, 4095, 8191] ∧
  Ascending aTab ∧ Ascending uTab ∧ (∀ i : Fin 8, aTab[i] = 2 ^ (i.val + 5) - 1 ∧ uTab[i] = 2 ^ (i.val + 6) - 1)

/-- R60: locate returns the first index whose threshold the value does not exceed, 8 if it exceeds every one, for any
eight naturals; the two locate commands answer it, and nothing else changes. -/
def Obligations.LocateReturnsTheFirstThresholdNotExceeded : Prop :=
  (∀ (value : Nat) (T : Table),
    (∀ i : Fin 8, locate value T = i.val ↔ value ≤ T[i] ∧ ∀ j : Fin 8, j < i → T[j] < value) ∧
    (locate value T = 8 ↔ ∀ i : Fin 8, T[i] < value) ∧ locate value T ≤ 8) ∧
  ∀ (v : LocValue) (s : State),
    exec (.loca v) s = .next { s with resp := BitVec.ofNat 16 (locate v.toNat aTab) } ∧
    exec (.locu v) s = .next { s with resp := BitVec.ofNat 16 (locate v.toNat uTab) }

/-- The equal forms of locate on an ascending table (40_segment_locator.md section 3, the spec's own inference, "derived:
from rule R60 and rule R62"): the number of entries below the value; and for the two tables the bit length. -/
def Obligations.LocateCountsEntriesAndBits : Prop :=
  (∀ (value : Nat) (T : Table), Ascending T →
    locate value T = ((List.finRange 8).filter fun i => T[i] < value).length) ∧
  ∀ value : Nat,
    locate value aTab = (if value ≤ 31 then 0 else if value ≤ 4095 then bitlen value - 5 else 8) ∧
    locate value uTab = (if value ≤ 63 then 0 else if value ≤ 8191 then bitlen value - 6 else 8)

/-- Segment monotonicity on an ascending table, and the full range map of the two tables (40_segment_locator.md section 3;
the map is the spec's own inference, "derived: from rule R60"). -/
def Obligations.LocateIsMonotone : Prop :=
  (∀ (T : Table) (a b : Nat), Ascending T → a ≤ b → locate a T ≤ locate b T) ∧
  ∀ value : Nat, locate value aTab = aSegment value ∧ locate value uTab = uSegment value

/-- The seg port (10_state.md section 4, 30_encoding.md section 2): its four bits hold locate of the value port, for any
table, and the patterns 9..15 never occur. -/
def Obligations.SegmentPortHoldsTheIndex : Prop :=
  ∀ (T : Table) (v : LocValue), (segmentLocator T v).toNat = locate v.toNat T ∧ segmentLocator T v ≤ 8

/-- R7: the right shift of the sample is the floor of a / 2^n; on a 16-bit word the vacated high bits are copies of
bit 15; with the rule's four examples. -/
def Obligations.ArithmeticShiftIsFloorAndCopiesTheSign : Prop :=
  (∀ (a : Int) (n : Nat), asr a n = ⌊(a : ℚ) / 2 ^ n⌋) ∧
  (∀ (w u : BitVec 16) (n : Nat), n ≤ 16 →
    (∀ k < 16, u.getLsbD k = if k + n < 16 then w.getLsbD (k + n) else w.getLsbD 15) → asr (sint16 w) n = sint16 u) ∧
  asr (-1) 3 = -1 ∧ asr (-8) 3 = -1 ∧ asr (-9) 3 = -2 ∧ asr 7 3 = 0

/-- The or of the encoders' two fields equals their sum, and the fields are read back from it (00_scope.md section 7.3, the
spec's own inference, and 30_encoding.md sections 2 and 3). -/
def Obligations.PackedFieldsAreTheirSum : Prop :=
  ∀ seg mant : Nat, mant ≤ 15 → packFields seg mant = 16 * seg + mant ∧
    mantField (packFields seg mant) = mant ∧ (seg ≤ 7 → segField (packFields seg mant) = seg) ∧
    (seg ≤ 7 → signField (packFields seg mant) = false)

/-- The range of every intermediate value over the whole input domain (the table of 00_scope.md section 7.3, the spec's
own inference); the A-law segment is never 8. -/
def Obligations.IntermediateValuesStayInRange : Prop :=
  (∀ pcm : Int, IsSample pcm →
    (-4096 ≤ alawShifted pcm ∧ alawShifted pcm ≤ 4095) ∧ alawMagOf pcm ≤ 4095 ∧ locate (alawMagOf pcm) aTab ≤ 7 ∧
    alawPreMask (alawMagOf pcm) ≤ 0x7F ∧
    (-8192 ≤ ulawShifted pcm ∧ ulawShifted pcm ≤ 8191) ∧ ulawMagOf pcm ≤ 8192 ∧ ulawClip (ulawMagOf pcm) ≤ 8159 ∧
    (33 ≤ ulawBiasedOf pcm ∧ ulawBiasedOf pcm ≤ 8192) ∧ locate (ulawBiasedOf pcm) uTab ≤ 8 ∧
    ulawPreMask (ulawBiasedOf pcm) ≤ 0x7F) ∧
  ∀ c : Code,
    let t := alawReconstruct (bitXor c.toNat 0x55)
    let u := ulawReconstruct (not8 c.toNat)
    (8 ≤ t ∧ t ≤ 32256) ∧ (alaw2linear c.toNat).natAbs = t ∧ (132 ≤ u ∧ u ≤ 32256) ∧
    (-32124 ≤ ulaw2linear c.toNat ∧ ulaw2linear c.toNat ≤ 32124)

/-- Evaluating the steps in signed 16-bit words gives the same results as in unbounded integers, for all four codec
blocks; and the parallel form of the locator, eight comparisons and the lowest true one, gives locate's index for both
tables and every value of the port (00_scope.md section 7.3 and 40_segment_locator.md section 3, the spec's own inference). -/
def Obligations.SixteenBitDatapathGivesTheSameResults : Prop :=
  (∀ w : Sample, Datapath16.alawEncoder w = alawEncoder w ∧ Datapath16.ulawEncoder w = ulawEncoder w) ∧
  (∀ c : Code, Datapath16.alawDecoder c = alawDecoder c ∧ Datapath16.ulawDecoder c = ulawDecoder c) ∧
  ∀ v : LocValue, (Datapath16.priorityLocate 0x1F v).toNat = locate v.toNat aTab ∧
    (Datapath16.priorityLocate 0x3F v).toNat = locate v.toNat uTab

/-- R70: L2A, step by step in integer arithmetic (v by floor division, the mantissa by division and remainder, the
segment by the range of the magnitude), completing in every state with nothing but the response changed. -/
def Obligations.LinearToALawFollowsTheNumberedSteps : Prop :=
  ∀ (pcm : Sample) (s : State),
    let v : Int := pcm.toInt / 8
    let mask : Nat := if v ≥ 0 then 0xD5 else 0x55
    let mag : Nat := (if v ≥ 0 then v else -v - 1).toNat
    let seg := aSegment mag
    let aval := if seg ≥ 8 then 0x7F else 16 * seg + (if seg < 2 then mag / 2 % 16 else mag / 2 ^ seg % 16)
    exec (.l2a pcm) s = .next { s with resp := BitVec.ofNat 16 (aval ^^^ mask) }

/-- R80: A2L, step by step in integer arithmetic, completing in every state with nothing but the response changed. -/
def Obligations.ALawToLinearFollowsTheNumberedSteps : Prop :=
  ∀ (ignored : BitVec 8) (code : Code) (s : State),
    let x := (code ^^^ 0x55).toNat
    let seg := x / 16 % 8
    let t := x % 16 * 16
    let t := if seg = 0 then t + 8 else if seg = 1 then t + 0x108 else (t + 0x108) * 2 ^ (seg - 1)
    exec (.a2l ignored code) s = .next { s with resp := BitVec.ofInt 16 (if 128 ≤ x then (t : Int) else -(t : Int)) }

/-- R90: L2U, step by step in integer arithmetic, completing in every state with nothing but the response changed. -/
def Obligations.LinearToULawFollowsTheNumberedSteps : Prop :=
  ∀ (pcm : Sample) (s : State),
    let v : Int := pcm.toInt / 4
    let mask : Nat := if v < 0 then 0x7F else 0xFF
    let mag : Nat := min (if v < 0 then -v else v).toNat 8159 + 33
    let seg := uSegment mag
    let uval := if seg ≥ 8 then 0x7F else 16 * seg + mag / 2 ^ (seg + 1) % 16
    exec (.l2u pcm) s = .next { s with resp := BitVec.ofNat 16 (uval ^^^ mask) }

/-- R100: U2L, step by step in integer arithmetic, completing in every state with nothing but the response changed. -/
def Obligations.ULawToLinearFollowsTheNumberedSteps : Prop :=
  ∀ (ignored : BitVec 8) (code : Code) (s : State),
    let y := 255 - code.toNat
    let t := (y % 16 * 8 + 132) * 2 ^ (y / 16 % 8)
    exec (.u2l ignored code) s = .next { s with resp := BitVec.ofInt 16 (if 128 ≤ y then (132 : Int) - t else (t : Int) - 132) }

/-- The two locate commands answer the range map of 40_segment_locator.md section 3 (the spec's own inference) for every
value of the port, with nothing but the response changed. -/
def Obligations.LocateCommandsAnswerTheRangeMap : Prop :=
  ∀ (v : LocValue) (s : State),
    exec (.loca v) s = .next { s with resp := BitVec.ofNat 16 (aSegment v.toNat) } ∧
    exec (.locu v) s = .next { s with resp := BitVec.ofNat 16 (uSegment v.toNat) }

/-- The wire code's fields on the response port (30_encoding.md section 2, the spec's own inference from the masks): bits
15:8 zero, bit 7 set exactly for a non-negative sample, bits 6:4 and 3:0 segment and mantissa of the pre-mask byte
inverted by the law's pattern. -/
def Obligations.WireCodeFieldsOfBothLaws : Prop :=
  ∀ (pcm : Sample) (s : State), ∃ a u : Resp,
    exec (.l2a pcm) s = .next { s with resp := a } ∧ exec (.l2u pcm) s = .next { s with resp := u } ∧
    (a.extractLsb' 8 8 = 0 ∧ a.getLsbD 7 = decide (0 ≤ pcm.toInt) ∧
      (a.extractLsb' 4 3).toNat = segField (alawPreMask (alawMagOf pcm.toInt)) ^^^ 0b101 ∧
      (a.extractLsb' 0 4).toNat = mantField (alawPreMask (alawMagOf pcm.toInt)) ^^^ 0b0101) ∧
    (u.extractLsb' 8 8 = 0 ∧ u.getLsbD 7 = decide (0 ≤ pcm.toInt) ∧
      (u.extractLsb' 4 3).toNat = segField (ulawPreMask (ulawBiasedOf pcm.toInt)) ^^^ 0b111 ∧
      (u.extractLsb' 0 4).toNat = mantField (ulawPreMask (ulawBiasedOf pcm.toInt)) ^^^ 0b1111)

/-- The mantissa is the four bits of the magnitude below its leading 1 in every case but A-law segment 0 (30_encoding.md
section 3; the leading 1 is the spec's own inference). -/
def Obligations.MantissaSitsBelowTheLeadingOne : Prop :=
  ∀ mag : Nat,
    (∀ seg, locate mag aTab = seg → seg ≤ 1 → mag = 32 * seg + 2 * alawMant mag seg + mag % 2) ∧
    (∀ seg, locate mag aTab = seg → 2 ≤ seg → seg ≤ 7 → mag = (16 + alawMant mag seg) * 2 ^ seg + mag % 2 ^ seg) ∧
    (∀ seg, locate mag uTab = seg → 33 ≤ mag → seg ≤ 7 →
      mag = (16 + ulawMant mag seg) * 2 ^ (seg + 1) + mag % 2 ^ (seg + 1))

/-- Interval structure of L2A (41_alaw_encoder.md section 2, the spec's own inference): a code is answered by exactly the
operands of its interval, on the non-negative and on the negative side. -/
def Obligations.ALawEncoderIntervals : Prop :=
  ∀ (seg m : Nat) (pcm : Int) (s : State), seg < 8 → m < 16 → IsSample pcm →
    (0 ≤ pcm → (exec (.l2a (bits16 pcm)) s = .next { s with resp := BitVec.ofNat 16 ((16 * seg + m) ^^^ 0xD5) } ↔
      alawLow seg m ≤ pcm ∧ pcm ≤ alawLow seg m + alawStep seg - 1)) ∧
    (pcm < 0 → (exec (.l2a (bits16 pcm)) s = .next { s with resp := BitVec.ofNat 16 ((16 * seg + m) ^^^ 0x55) } ↔
      -(alawLow seg m + alawStep seg) ≤ pcm ∧ pcm ≤ -alawLow seg m - 1))

/-- Sign symmetry of L2A about -1/2 (41_alaw_encoder.md section 2, the spec's own inference): complementing the sample word
flips bit 7 of the code and nothing else, and every code is the code of some sample. -/
def Obligations.ALawEncoderMirrorsTheSign : Prop :=
  (∀ (pcm : Sample) (s : State), ∃ r : Resp, exec (.l2a pcm) s = .next { s with resp := r } ∧
    exec (.l2a (~~~pcm)) s = .next { s with resp := r ^^^ 0x80 }) ∧
  ∀ c : Code, ∃ pcm : Sample, ∀ s : State, exec (.l2a pcm) s = .next { s with resp := c.setWidth 16 }

/-- The A-law round trip does not decrease (41_alaw_encoder.md section 2, the spec's own inference). -/
def Obligations.ALawRoundTripIsMonotone : Prop :=
  ∀ a b : Int, IsSample a → IsSample b → a ≤ b → rta a ≤ rta b

/-- Closed form of A2L (42_alaw_decoder.md section 2, the spec's own inference): the midpoint of the encoder's interval,
plus when bit 7 is set; the least and greatest magnitude of each segment; all 256 results different. -/
def Obligations.ALawDecoderAnswersTheMidpoint : Prop :=
  (∀ (ignored : BitVec 8) (code : Code) (s : State),
    let x := code ^^^ 0x55
    let mid := alawMid (x.extractLsb' 4 3).toNat (x.extractLsb' 0 4).toNat
    exec (.a2l ignored code) s = .next { s with resp := BitVec.ofInt 16 (if x.getLsbD 7 then mid else -mid) }) ∧
  (∀ seg m : Nat, seg < 8 → alawMid seg m = alawLow seg m + alawStep seg / 2) ∧
  (List.range 8).map (alawMid · 0) = [8, 264, 528, 1056, 2112, 4224, 8448, 16896] ∧
  (List.range 8).map (alawMid · 15) = [248, 504, 1008, 2016, 4032, 8064, 16128, 32256] ∧
  ∀ c d : Code, alawDecoder c = alawDecoder d → c = d

/-- Odd symmetry of A2L (42_alaw_decoder.md section 2, the spec's own inference): bit 7 only chooses the sign. -/
def Obligations.ALawDecoderSignBitNegates : Prop :=
  ∀ (ignored : BitVec 8) (code : Code) (s : State), ∃ r : Resp,
    exec (.a2l ignored code) s = .next { s with resp := r } ∧
    exec (.a2l ignored (code ^^^ 0x80)) s = .next { s with resp := -r }

/-- A-law encode after decode is the identity on all 256 codes, and RTA twice is RTA once (42_alaw_decoder.md section 2,
the spec's own inference). -/
def Obligations.ALawEncodeAfterDecode : Prop :=
  (∀ (ignored : BitVec 8) (code : Code) (s : State), ∃ r : Resp,
    exec (.a2l ignored code) s = .next { s with resp := r } ∧
    exec (.l2a r) { s with resp := r } = .next { s with resp := code.setWidth 16 }) ∧
  ∀ x : Int, IsSample x → rta (rta x) = rta x

/-- A-law round-trip error (42_alaw_decoder.md section 2, the spec's own inference): at most half the step of the code's
segment, that maximum reached in every segment, and 512 reached at exactly the 32 operands listed. -/
def Obligations.ALawRoundTripError : Prop :=
  (∀ x : Int, IsSample x → 2 * |x - rta x| ≤ alawStep (alawSegOf x)) ∧
  (∀ seg < 8, ∃ x, IsSample x ∧ alawSegOf x = seg ∧ 2 * |x - rta x| = alawStep seg) ∧
  ∀ x : Int, IsSample x → (|x - rta x| = 512 ↔
    (16384 ≤ x ∧ x ≤ 31744 ∧ x % 1024 = 0) ∨ (-32768 ≤ x ∧ x ≤ -17408 ∧ x % 1024 = 0))

/-- Clip and saturation of L2U (43_ulaw_encoder.md section 2, the spec's own inference): which operands the clip changes,
which take step 6 and what they give, and that omitting the clip or any CLIP from 7903 up gives the same results. -/
def Obligations.ULawClipAndSaturation : Prop :=
  ∀ pcm : Int, IsSample pcm →
    (ulawClip (ulawMagOf pcm) ≠ ulawMagOf pcm ↔ 32640 ≤ pcm ∨ pcm ≤ -32637) ∧
    (8 ≤ locate (ulawBiasedOf pcm) uTab ↔ 32636 ≤ pcm ∨ pcm ≤ -32633) ∧
    (32636 ≤ pcm → linear2ulaw pcm = 0x80) ∧ (pcm ≤ -32633 → linear2ulaw pcm = 0x00) ∧
    (∀ c : Nat, 7903 ≤ c →
      linear2ulaw pcm = bitXor (ulawPreMask (ulawBias (min (ulawMagOf pcm) c))) (ulawMask (ulawShifted pcm))) ∧
    linear2ulaw pcm = bitXor (ulawPreMask (ulawBias (ulawMagOf pcm))) (ulawMask (ulawShifted pcm))

/-- L2U never answers the code 0x7F; the other 255 codes are each answered for some sample (43_ulaw_encoder.md section 2,
the spec's own inference). -/
def Obligations.ULawNegativeZeroIsNeverProduced : Prop :=
  (∀ (pcm : Sample) (s t : State), exec (.l2u pcm) s = .next t → t.resp ≠ 0x007F) ∧
  ∀ c : Code, c ≠ 0x7F → ∃ pcm : Sample, ∀ s : State, exec (.l2u pcm) s = .next { s with resp := c.setWidth 16 }

/-- Sign asymmetry of L2U (43_ulaw_encoder.md section 2, the spec's own inference): the negative half is the mirror of the
non-negative half displaced by 3. -/
def Obligations.ULawSignAsymmetry : Prop :=
  ∀ (n : Int) (s : State), 1 ≤ n → n ≤ 32768 → ∃ r : Resp,
    exec (.l2u (bits16 (min (n + 3) 32767))) s = .next { s with resp := r } ∧
    exec (.l2u (bits16 (-n))) s = .next { s with resp := r ^^^ 0x80 }

/-- Interval structure of L2U (43_ulaw_encoder.md section 2, the spec's own inference), the top interval open to the end
of the range, the bottom one cut off at 0 and empty on the negative side. -/
def Obligations.ULawEncoderIntervals : Prop :=
  ∀ (seg m : Nat) (pcm : Int) (s : State), seg < 8 → m < 16 → IsSample pcm →
    (0 ≤ pcm → (exec (.l2u (bits16 pcm)) s = .next { s with resp := BitVec.ofNat 16 ((16 * seg + m) ^^^ 0xFF) } ↔
      ulawLow seg m ≤ pcm ∧ (pcm ≤ ulawLow seg m + ulawStep seg - 1 ∨ seg = 7 ∧ m = 15))) ∧
    (pcm < 0 → (exec (.l2u (bits16 pcm)) s = .next { s with resp := BitVec.ofNat 16 ((16 * seg + m) ^^^ 0x7F) } ↔
      (-(ulawLow seg m + ulawStep seg - 4) ≤ pcm ∨ seg = 7 ∧ m = 15) ∧ pcm ≤ -(ulawLow seg m - 3)))

/-- The µ-law round trip does not decrease (43_ulaw_encoder.md section 2, the spec's own inference). -/
def Obligations.ULawRoundTripIsMonotone : Prop :=
  ∀ a b : Int, IsSample a → IsSample b → a ≤ b → rtu a ≤ rtu b

/-- Closed form of U2L (44_ulaw_decoder.md section 2, the spec's own inference): the midpoint of the encoder's interval,
minus when bit 7 of the complemented byte is set; the least and greatest magnitude of each segment. -/
def Obligations.ULawDecoderAnswersTheMidpoint : Prop :=
  (∀ (ignored : BitVec 8) (code : Code) (s : State),
    let y := ~~~code
    let mid := ulawMid (y.extractLsb' 4 3).toNat (y.extractLsb' 0 4).toNat
    exec (.u2l ignored code) s = .next { s with resp := BitVec.ofInt 16 (if y.getLsbD 7 then -mid else mid) }) ∧
  (∀ seg m : Nat, ulawMid seg m = ulawLow seg m + ulawStep seg / 2 ∧
    ulawMid seg m = (8 * m + 132) * 2 ^ seg - 132 ∧ ulawMid seg m = (2 * m + 33) * 2 ^ (seg + 2) - 132) ∧
  (List.range 8).map (ulawMid · 0) = [0, 132, 396, 924, 1980, 4092, 8316, 16764] ∧
  (List.range 8).map (ulawMid · 15) = [120, 372, 876, 1884, 3900, 7932, 15996, 32124]

/-- Odd symmetry of U2L and its two zeros (44_ulaw_decoder.md section 2, the spec's own inference): bit 7 only chooses the
sign, the codes 0xFF and 0x7F both decode to 0, and no other two codes decode alike. -/
def Obligations.ULawDecoderSignBitAndTheTwoZeros : Prop :=
  (∀ (ignored : BitVec 8) (code : Code) (s : State), ∃ r : Resp,
    exec (.u2l ignored code) s = .next { s with resp := r } ∧
    exec (.u2l ignored (code ^^^ 0x80)) s = .next { s with resp := -r } ∧ (r = 0 ↔ code = 0xFF ∨ code = 0x7F)) ∧
  ∀ c d : Code, ulawDecoder c = ulawDecoder d → c = d ∨ (c = 0xFF ∧ d = 0x7F) ∨ (c = 0x7F ∧ d = 0xFF)

/-- µ-law encode after decode is the identity on every code but 0x7F, for which it is 0xFF, and RTU twice is RTU once
(44_ulaw_decoder.md section 2, the spec's own inference). -/
def Obligations.ULawEncodeAfterDecode : Prop :=
  (∀ (ignored : BitVec 8) (code : Code) (s : State), ∃ r : Resp,
    exec (.u2l ignored code) s = .next { s with resp := r } ∧
    exec (.l2u r) { s with resp := r } = .next { s with resp := if code = 0x7F then 0x00FF else code.setWidth 16 }) ∧
  ∀ x : Int, IsSample x → rtu (rtu x) = rtu x

/-- µ-law round-trip error (44_ulaw_decoder.md section 2, the spec's own inference): half the step below the clipped top,
3 more on the negative side, each reached in every segment; 643 at most on the non-negative side, and 644 at -32768
alone. -/
def Obligations.ULawRoundTripError : Prop :=
  (∀ x : Int, 0 ≤ x → x ≤ 32635 → 2 * |x - rtu x| ≤ ulawStep (ulawSegOf x)) ∧
  (∀ x : Int, -32635 ≤ x → x < 0 → 2 * (|x - rtu x| - 3) ≤ ulawStep (ulawSegOf x)) ∧
  (∀ seg < 8, ∃ x y, 0 ≤ x ∧ x ≤ 32635 ∧ ulawSegOf x = seg ∧ 2 * |x - rtu x| = ulawStep seg ∧
    -32635 ≤ y ∧ y < 0 ∧ ulawSegOf y = seg ∧ 2 * (|y - rtu y| - 3) = ulawStep seg) ∧
  (∀ x : Int, IsSample x → 0 ≤ x → |x - rtu x| ≤ 643) ∧ |32767 - rtu 32767| = 643 ∧
  ∀ x : Int, IsSample x → |x - rtu x| ≤ 644 ∧ (|x - rtu x| = 644 ↔ x = -32768)

/-- RTA x and RTU x each expand to two commands, the low byte of the first response carried into the operand of the second
(30_encoding.md section 6): two steps from any state, the result the round trip's. That each step records its pair and
leaves the rest of the host's list is the model's choice (log 1, log 9), as is the form of a copied entry (log 7). -/
def Obligations.RoundTripLinesRunAsTwoEvaluations : Prop :=
  ∀ (x : Int) (s : State) (rest : List Presented), IsSample x →
    (∃ ps, expand (.rta x) = some ps ∧
      let code := BitVec.ofNat 16 (linear2alaw x)
      let second : Evaluation := ⟨commandWord 1 code, BitVec.ofInt 16 (rta x)⟩
      Sys2Proof.core.run 2 { s with pending := ps ++ rest } = .next ⟨second.cmd, second.resp, rest,
        second :: ⟨commandWord 0 (BitVec.ofInt 16 x), code⟩ :: s.evaluations⟩) ∧
    ∃ ps, expand (.rtu x) = some ps ∧
      let code := BitVec.ofNat 16 (linear2ulaw x)
      let second : Evaluation := ⟨commandWord 3 code, BitVec.ofInt 16 (rtu x)⟩
      Sys2Proof.core.run 2 { s with pending := ps ++ rest } = .next ⟨second.cmd, second.resp, rest,
        second :: ⟨commandWord 2 (BitVec.ofInt 16 x), code⟩ :: s.evaluations⟩

/-- Command lines (30_encoding.md section 6): a line whose operand is in its operation's domain assembles to the word that
decodes to the instruction with that operand, ignored bits zero (the domains: 00_scope.md section 5, and for LOCA and LOCU
the 16-bit value port of 10_state.md section 4). That a line is a mnemonic and a number (log 14), and that one outside the
domain assembles to nothing (log 11), is the model's choice, as is the field of A2L and U2L that holds the ignored bits
(log 8). -/
def Obligations.CommandLinesAssembleToTheirInstruction : Prop :=
  (∀ x : Int, IsSample x → ∃ p : Sample, p.toInt = x ∧
    (assemble ⟨.L2A, x⟩).map decode = some (.ok (.l2a p)) ∧ (assemble ⟨.L2U, x⟩).map decode = some (.ok (.l2u p))) ∧
  (∀ c : Code, (assemble ⟨.A2L, c.toNat⟩).map decode = some (.ok (.a2l 0 c)) ∧
    (assemble ⟨.U2L, c.toNat⟩).map decode = some (.ok (.u2l 0 c))) ∧
  (∀ v : LocValue, (assemble ⟨.LOCA, v.toNat⟩).map decode = some (.ok (.loca v)) ∧
    (assemble ⟨.LOCU, v.toNat⟩).map decode = some (.ok (.locu v))) ∧
  ∀ x : Int,
    (¬IsSample x → assemble ⟨.L2A, x⟩ = none ∧ assemble ⟨.L2U, x⟩ = none) ∧
    (x < 0 ∨ 255 < x → assemble ⟨.A2L, x⟩ = none ∧ assemble ⟨.U2L, x⟩ = none) ∧
    (x < 0 ∨ 65535 < x → assemble ⟨.LOCA, x⟩ = none ∧ assemble ⟨.LOCU, x⟩ = none)

/-- R52 and R53: a command word with op 0b110 or 0b111 has no operation (no instruction decodes from it or encodes to it) and
no result; every other word, with every operand value, has both. -/
def Obligations.OnlyReservedOpsHaveNoOperationAndNoResult : Prop :=
  ∀ w : Cmd,
    let op := w.extractLsb' 16 3
    (op = 0b110 ∨ op = 0b111 →
      decode w = .error (.reservedOp op) ∧ (∀ i : Instr, encode i ≠ w) ∧ g711Core w = none) ∧
    (¬(op = 0b110 ∨ op = 0b111) → ∃ (i : Instr) (r : Resp), decode w = .ok i ∧ g711Core w = some r)

/-- R51: what g711_core computes, resp as a function of cmd: for every command word, as the block's function and as the
decoded instruction run in any state; the operand bits 15:8 have no effect for A2L and U2L, results narrower than resp are
zero-extended, nothing but resp is written; for op 6 and 7 the function gives no response and the
word decodes to no instruction. -/
def Obligations.WrapperComputesTheSelectedOperation : Prop :=
  ∀ w : Cmd,
    let op := (w.extractLsb' 16 3).toNat
    let operand := w.extractLsb' 0 16
    let computes (r : Resp) : Prop := g711Core w = some r ∧
      ∃ i : Instr, decode w = .ok i ∧ ∀ s : State, exec i s = .next { s with resp := r }
    (op = 0 → computes (BitVec.ofNat 16 (linear2alaw operand.toInt))) ∧
    (op = 1 → computes (BitVec.ofInt 16 (alaw2linear (operand.toNat % 256)))) ∧
    (op = 2 → computes (BitVec.ofNat 16 (linear2ulaw operand.toInt))) ∧
    (op = 3 → computes (BitVec.ofInt 16 (ulaw2linear (operand.toNat % 256)))) ∧
    (op = 4 → computes (BitVec.ofNat 16 (locate operand.toNat aTab))) ∧
    (op = 5 → computes (BitVec.ofNat 16 (locate operand.toNat uTab))) ∧
    (op = 6 ∨ op = 7 → g711Core w = none ∧ ∀ i : Instr, decode w ≠ .ok i)
end

