-- ==== Sys2Proof/Laws/Arith.lean ====
section
/-! SUPPORT. The pseudocode primitives in Lean's own terms, and the scan of a table of eight entries. -/
namespace Sys2Proof.Machine

@[simp] theorem asr_def (a : Int) (n : Nat) : asr a n = a / 2 ^ n := rfl
@[simp] theorem shr_eq_div (a n : Nat) : shr a n = a / 2 ^ n := Nat.shiftRight_eq_div_pow a n
@[simp] theorem shl_eq_mul (a n : Nat) : shl a n = a * 2 ^ n := Nat.shiftLeft_eq a n
@[simp] theorem bitAnd_quantMask (a : Nat) : bitAnd a quantMask = a % 16 := Nat.and_two_pow_sub_one_eq_mod a 4
@[simp] theorem not8_def (a : Nat) : not8 a = 255 - a := rfl
@[simp] theorem sint16_def (w : BitVec 16) : sint16 w = w.toInt := rfl
@[simp] theorem bits16_def (n : Int) : bits16 n = BitVec.ofInt 16 n := rfl

@[simp] theorem scan_nil (value i : Nat) : scan value [] i = i := rfl
theorem scan_cons (value t i : Nat) (ts : List Nat) :
    scan value (t :: ts) i = if value ≤ t then i else scan value ts (i + 1) := rfl

theorem scan_ge (value : Nat) (ts : List Nat) (i : Nat) : i ≤ scan value ts i := by
  induction ts generalizing i with
  | nil => exact Nat.le_refl i
  | cons t ts ih =>
    rw [scan_cons]
    split
    · exact Nat.le_refl i
    · exact Nat.le_trans (Nat.le_succ i) (ih (i + 1))

theorem scan_le (value : Nat) (ts : List Nat) (i : Nat) : scan value ts i ≤ i + ts.length := by
  induction ts generalizing i with
  | nil => exact Nat.le_refl i
  | cons t ts ih =>
    rw [scan_cons]
    split
    · exact Nat.le_add_right i _
    · have := ih (i + 1)
      simp only [List.length_cons]
      omega

theorem locate_le_eight (value : Nat) (T : Table) : locate value T ≤ 8 := by
  have := scan_le value T.toList 0
  simpa [locate] using this

end Sys2Proof.Machine
end

