-- ==== Sys2Proof/Laws/Decode.lean ====
section
/-! SUPPORT. The two fields of a command word, and the two bytes of an operand. -/
namespace Sys2Proof

theorem getLsbD_commandWord (op : Op) (operand : Operand) (k : Nat) :
    (commandWord op operand).getLsbD k = if k < 16 then operand.getLsbD k else op.getLsbD (k - 16) := by
  exact BitVec.getLsbD_append (x := op) (y := operand) (i := k)

theorem getLsbD_joinBytes (high low : BitVec 8) (k : Nat) :
    (joinBytes high low).getLsbD k = if k < 8 then low.getLsbD k else high.getLsbD (k - 8) := by
  exact BitVec.getLsbD_append (x := high) (y := low) (i := k)

theorem opField_commandWord (op : Op) (operand : Operand) : opField (commandWord op operand) = op := by
  refine BitVec.eq_of_getLsbD_eq fun k hk => ?_
  simp [opField, getLsbD_commandWord, hk]

theorem operandField_commandWord (op : Op) (operand : Operand) :
    operandField (commandWord op operand) = operand := by
  refine BitVec.eq_of_getLsbD_eq fun k hk => ?_
  simp [operandField, getLsbD_commandWord, hk]

theorem commandWord_fields (w : Cmd) : commandWord (opField w) (operandField w) = w := by
  refine BitVec.eq_of_getLsbD_eq fun k hk => ?_
  by_cases h : k < 16
  · simp [opField, operandField, getLsbD_commandWord, h]
  · have h3 : k - 16 < 3 := by omega
    have hk' : 16 + (k - 16) = k := by omega
    simp [opField, operandField, getLsbD_commandWord, h, h3, hk']

theorem lowByte_joinBytes (high low : BitVec 8) : lowByte (joinBytes high low) = low := by
  refine BitVec.eq_of_getLsbD_eq fun k hk => ?_
  simp [lowByte, getLsbD_joinBytes, hk]

theorem highByte_joinBytes (high low : BitVec 8) : highByte (joinBytes high low) = high := by
  refine BitVec.eq_of_getLsbD_eq fun k hk => ?_
  simp [highByte, getLsbD_joinBytes, hk]

theorem joinBytes_bytes (x : Operand) : joinBytes (highByte x) (lowByte x) = x := by
  refine BitVec.eq_of_getLsbD_eq fun k hk => ?_
  by_cases h : k < 8
  · simp [lowByte, getLsbD_joinBytes, h]
  · have h8 : k - 8 < 8 := by omega
    have hk' : 8 + (k - 8) = k := by omega
    simp [highByte, getLsbD_joinBytes, h, h8, hk']

/-- The op values assigned are the six below 6 (R50). -/
theorem opNumber_lt (i : Instr) : (opNumber i).toNat < 6 := by
  cases i <;> simp [opNumber]

end Sys2Proof
end

