-- ==== Sys2Proof/Laws/State.lean ====
section
/-! SUPPORT. One lemma per field per state update, and that the updates do not disturb each other's fields. -/
namespace Sys2Proof.Machine

@[simp] theorem State.drive_cmd (s : State) (r : Resp) : (s.drive r).cmd = s.cmd := rfl
@[simp] theorem State.drive_resp (s : State) (r : Resp) : (s.drive r).resp = r := rfl
@[simp] theorem State.drive_pending (s : State) (r : Resp) : (s.drive r).pending = s.pending := rfl
@[simp] theorem State.drive_evaluations (s : State) (r : Resp) : (s.drive r).evaluations = s.evaluations := rfl

@[simp] theorem State.present_cmd (s : State) (w : Cmd) (rest : List Presented) : (s.present w rest).cmd = w := rfl
@[simp] theorem State.present_resp (s : State) (w : Cmd) (rest : List Presented) : (s.present w rest).resp = s.resp := rfl
@[simp] theorem State.present_pending (s : State) (w : Cmd) (rest : List Presented) :
    (s.present w rest).pending = rest := rfl
@[simp] theorem State.present_evaluations (s : State) (w : Cmd) (rest : List Presented) :
    (s.present w rest).evaluations = s.evaluations := rfl

@[simp] theorem State.record_cmd (s : State) : s.record.cmd = s.cmd := rfl
@[simp] theorem State.record_resp (s : State) : s.record.resp = s.resp := rfl
@[simp] theorem State.record_pending (s : State) : s.record.pending = s.pending := rfl
@[simp] theorem State.record_evaluations (s : State) :
    s.record.evaluations = ⟨s.cmd, s.resp⟩ :: s.evaluations := rfl

@[simp] theorem State.enqueue_cmd (s : State) (w : Cmd) : (s.enqueue w).cmd = s.cmd := rfl
@[simp] theorem State.enqueue_resp (s : State) (w : Cmd) : (s.enqueue w).resp = s.resp := rfl
@[simp] theorem State.enqueue_pending (s : State) (w : Cmd) : (s.enqueue w).pending = .word w :: s.pending := rfl
@[simp] theorem State.enqueue_evaluations (s : State) (w : Cmd) : (s.enqueue w).evaluations = s.evaluations := rfl

@[simp] theorem State.reset_cmd : State.reset.cmd = 0 := rfl
@[simp] theorem State.reset_resp : State.reset.resp = 0x00D5 := rfl
@[simp] theorem State.reset_pending : State.reset.pending = [] := rfl
@[simp] theorem State.reset_evaluations : State.reset.evaluations = [] := rfl

end Sys2Proof.Machine
end

