-- ==== Sys2Proof/Laws/Exec.lean ====
section
/-! SUPPORT. Each meaning drives the response port and does nothing else. -/
namespace Sys2Proof.Machine

@[simp] theorem exec_l2a (pcm : Sample) (s : State) : exec (.l2a pcm) s = .next (s.drive (zext16 (alawEncoder pcm))) := rfl
@[simp] theorem exec_a2l (ignored : BitVec 8) (code : Code) (s : State) :
    exec (.a2l ignored code) s = .next (s.drive (alawDecoder code)) := rfl
@[simp] theorem exec_l2u (pcm : Sample) (s : State) : exec (.l2u pcm) s = .next (s.drive (zext16 (ulawEncoder pcm))) := rfl
@[simp] theorem exec_u2l (ignored : BitVec 8) (code : Code) (s : State) :
    exec (.u2l ignored code) s = .next (s.drive (ulawDecoder code)) := rfl
@[simp] theorem exec_loca (value : LocValue) (s : State) :
    exec (.loca value) s = .next (s.drive (zext16 (segmentLocator aTab value))) := rfl
@[simp] theorem exec_locu (value : LocValue) (s : State) :
    exec (.locu value) s = .next (s.drive (zext16 (segmentLocator uTab value))) := rfl

/-- The frame of every instruction: the command port and the host's lists are unchanged. -/
theorem exec_frame {i : Instr} {s t : State} (h : exec i s = .next t) :
    t.cmd = s.cmd ∧ t.pending = s.pending ∧ t.evaluations = s.evaluations := by
  cases i <;> (simp only [exec_l2a, exec_a2l, exec_l2u, exec_u2l, exec_loca, exec_locu, Host.Outcome.next.injEq] at h
               subst h; exact ⟨rfl, rfl, rfl⟩)

end Sys2Proof.Machine
end

