-- ==== Sys2Proof/Laws/Ops.lean ====
section
/-! SUPPORT. What the shared operations on the host's list can answer. -/
namespace Sys2Proof.Machine

@[simp] theorem Presented.word?_word (es : List Evaluation) (w : Cmd) : Presented.word? es (.word w) = some w := rfl

@[simp] theorem Presented.word?_copied (es : List Evaluation) (op : Op) (back : Nat) (bits : CopiedBits) :
    Presented.word? es (.copied op back bits) = es[back]?.map fun e => commandWord op (bits.take e.resp) := rfl

@[simp] theorem CopiedBits.take_lowByte (r : Resp) : CopiedBits.take .lowByte r = (r.extractLsb' 0 8).setWidth 16 := rfl
@[simp] theorem CopiedBits.take_wholeWord (r : Resp) : CopiedBits.take .wholeWord r = r := rfl

theorem fetch_nil {s : State} (h : s.pending = []) : fetch s = .idle := by simp [fetch, h]

theorem fetch_cons_some {s : State} {p : Presented} {rest : List Presented} {w : Cmd} (h : s.pending = p :: rest)
    (hw : Presented.word? s.evaluations p = some w) : fetch s = .command w rest := by
  cases p with
  | word v =>
    simp only [Presented.word?_word, Option.some.injEq] at hw
    simp [fetch, h, hw]
  | copied op back bits => simp [fetch, h, hw]

theorem fetch_cons_none {s : State} {op : Op} {back : Nat} {bits : CopiedBits} {rest : List Presented}
    (h : s.pending = .copied op back bits :: rest) (hw : s.evaluations[back]? = none) : fetch s = .missing back := by
  simp [fetch, h, hw]

/-- Fetch says the list is empty, or its head stands for no word, or the word its head stands for. -/
theorem fetch_cases (s : State) :
    (s.pending = [] ∧ fetch s = .idle) ∨
    (∃ op back bits rest, s.pending = .copied op back bits :: rest ∧ s.evaluations[back]? = none ∧ fetch s = .missing back) ∨
    (∃ p rest w, s.pending = p :: rest ∧ Presented.word? s.evaluations p = some w ∧ fetch s = .command w rest) := by
  rcases hp : s.pending with _ | ⟨p, rest⟩
  · exact .inl ⟨rfl, fetch_nil hp⟩
  · rcases hw : Presented.word? s.evaluations p with _ | w
    · cases p with
      | word v => simp at hw
      | copied op back bits =>
        have hn : s.evaluations[back]? = none := by simpa using hw
        exact .inr (.inl ⟨op, back, bits, rest, rfl, hn, fetch_cons_none hp hn⟩)
    · exact .inr (.inr ⟨p, rest, w, rfl, hw, fetch_cons_some hp hw⟩)

@[simp] theorem recorded_next (s : State) : recorded (.next s) = .next s.record := rfl
@[simp] theorem recorded_fault (f : Fault) : recorded (.fault f) = .fault f := rfl
@[simp] theorem recorded_refused (r : Refusal) : recorded (.refused r) = .refused r := rfl

theorem recorded_eq_next {o : Host.Outcome State Fault Refusal} {t : State} (h : recorded o = .next t) :
    ∃ u, o = .next u ∧ t = u.record := by
  cases o with
  | next u => exact ⟨u, rfl, by simpa using h.symm⟩
  | fault f => simp at h
  | refused r => simp at h

end Sys2Proof.Machine
end

