-- ==== Sys2Proof/Laws/PerInstr.lean ====
section
/-! SUPPORT. Statements about every instruction as syntax, one lemma per constructor. -/

/-- The op field of an instruction's word is its row's op value, one of the six assigned (30_encoding.md R50). -/
def Sys2Proof.Laws.OpField.Statement (i : Sys2Proof.Instr) : Prop :=
  Sys2Proof.opField (Sys2Proof.encode i) = Sys2Proof.opNumber i ∧ (Sys2Proof.opNumber i).toNat < 6

namespace Sys2Proof.Laws.OpField

theorem l2a (pcm : Sample) : Statement (.l2a pcm) := ⟨opField_commandWord _ _, opNumber_lt _⟩
theorem a2l (ignored : BitVec 8) (code : Code) : Statement (.a2l ignored code) := ⟨opField_commandWord _ _, opNumber_lt _⟩
theorem l2u (pcm : Sample) : Statement (.l2u pcm) := ⟨opField_commandWord _ _, opNumber_lt _⟩
theorem u2l (ignored : BitVec 8) (code : Code) : Statement (.u2l ignored code) := ⟨opField_commandWord _ _, opNumber_lt _⟩
theorem loca (value : LocValue) : Statement (.loca value) := ⟨opField_commandWord _ _, opNumber_lt _⟩
theorem locu (value : LocValue) : Statement (.locu value) := ⟨opField_commandWord _ _, opNumber_lt _⟩

end Sys2Proof.Laws.OpField
end

