-- ==== Sys2Proof/Laws/Step.lean ====
section
/-! SUPPORT. Everything a step that answers a next state can have done. -/
namespace Sys2Proof.Machine

/-- A step that answers t found the host's list empty and changed nothing, or presented the word its head stands for, ran
the instruction that word decodes to, and recorded the pair. -/
theorem step_cases {s t : State} (h : step s = .next t) :
    (s.pending = [] ∧ t = s) ∨
    ∃ p rest w i u, s.pending = p :: rest ∧ Presented.word? s.evaluations p = some w ∧ decode w = .ok i ∧
      exec i (s.present w rest) = .next u ∧ t = u.record := by
  unfold step at h
  rcases fetch_cases s with ⟨hp, hf⟩ | ⟨op, back, bits, rest, hp, hn, hf⟩ | ⟨p, rest, w, hp, hw, hf⟩
  · rw [hf] at h
    exact .inl ⟨hp, by simpa [idle] using h.symm⟩
  · simp [hf] at h
  · rw [hf] at h
    simp only at h
    rcases hd : decode w with why | i
    · simp [hd] at h
    · simp only [hd] at h
      obtain ⟨u, hu, ht⟩ := recorded_eq_next h
      exact .inr ⟨p, rest, w, i, u, hp, hw, hd, hu, ht⟩

/-- The host's list shrinks by one entry, or was empty and stays so. -/
theorem step_pending {s t : State} (h : step s = .next t) : t.pending = s.pending.tail := by
  rcases step_cases h with ⟨hp, rfl⟩ | ⟨p, rest, w, i, u, hp, -, -, hu, rfl⟩
  · simp [hp]
  · simp [(exec_frame hu).2.1, hp]

end Sys2Proof.Machine
end

