-- ==== Sys2Proof/Tests/Slice0.lean ====
section
/-! SUPPORT. The model's own tests. Expected values are those of spec/95_test_vectors.md (section named at each test) or
of the rule named; words are written out from the operation map of 30_encoding.md R50. -/
namespace Sys2Proof.Tests
open Sys2Proof.Machine Sys2Proof.Safety Sys2Proof.Spec

/-- The state an outcome leaves, if it leaves one. -/
def stateOf : Host.Outcome State Fault Refusal → Option State
  | .next s => some s
  | .fault _ => none
  | .refused _ => none

/-- Why an outcome is refused, if it is. -/
def refusalOf : Host.Outcome State Fault Refusal → Option Refusal
  | .next _ => none
  | .fault _ => none
  | .refused r => some r

/-- The response port after an instruction run on the reset state. -/
def respOf (i : Instr) : Option Resp := (stateOf (exec i .reset)).map (·.resp)

/-- A small state that is not reset's: a word on the port, one evaluation made, the given list still to present. -/
def sample (pending : List Presented) : State :=
  { cmd := 0x20000, resp := 0x00FF, pending, evaluations := [⟨0x20000, 0x00FF⟩] }

/-! Well-formedness: one ill-formed line per check (R4, R61), refused. -/

theorem test_wf_refuses_sample_above_range : CommandLine.wf ⟨.L2A, 32768⟩ = false := by decide
theorem test_wf_refuses_sample_below_range : CommandLine.wf ⟨.L2U, -32769⟩ = false := by decide
theorem test_wf_refuses_code_above_range : CommandLine.wf ⟨.A2L, 256⟩ = false := by decide
theorem test_wf_refuses_negative_code : CommandLine.wf ⟨.U2L, -1⟩ = false := by decide
theorem test_wf_refuses_value_above_port : CommandLine.wf ⟨.LOCA, 65536⟩ = false := by decide
theorem test_wf_refuses_negative_value : CommandLine.wf ⟨.LOCU, -1⟩ = false := by decide
theorem test_wf_refuses_rta_out_of_range : HostLine.wf (.rta 32768) = false := by decide
theorem test_wf_refuses_rtu_out_of_range : HostLine.wf (.rtu (-32769)) = false := by decide
theorem test_wf_refuses_ill_formed_command : HostLine.wf (.command ⟨.A2L, -1⟩) = false := by decide
theorem test_wf_accepts_the_ends_of_the_ranges :
    [CommandLine.wf ⟨.L2A, -32768⟩, CommandLine.wf ⟨.L2U, 32767⟩, CommandLine.wf ⟨.A2L, 255⟩, CommandLine.wf ⟨.U2L, 0⟩,
      CommandLine.wf ⟨.LOCA, 65535⟩, CommandLine.wf ⟨.LOCU, 0⟩] = [true, true, true, true, true, true] := by decide

/-! Decoding, each constructor's word bit by bit (R50; the commands of 95_test_vectors.md sections 3 to 5). -/

theorem test_decode_l2a : decode 0b000_1111_1111_1110_1111 = .ok (.l2a (BitVec.ofInt 16 (-17))) := by decide
theorem test_decode_a2l : decode 0b001_1010_1011_1101_0101 = .ok (.a2l 0xAB 0xD5) := by decide
theorem test_decode_l2u : decode 0b010_0000_0000_0111_1100 = .ok (.l2u 124) := by decide
theorem test_decode_u2l : decode 0b011_0000_0000_1100_1110 = .ok (.u2l 0x00 0xCE) := by decide
theorem test_decode_loca : decode 0b100_0000_1111_1111_1111 = .ok (.loca 4095) := by decide
theorem test_decode_locu : decode 0b101_0001_1111_1111_1111 = .ok (.locu 8191) := by decide
theorem test_decode_refuses_op_six : decode 0b110_0000_0000_0000_0000 = .error (.reservedOp 6) := by decide
theorem test_decode_refuses_op_seven : decode 0b111_0000_0000_0000_0001 = .error (.reservedOp 7) := by decide
theorem test_decode_refuses_twenty_bits : decodeNat 0x80000 = .error (.widerThanCommandWord 0x80000) := by decide
theorem test_decode_table_word : decodeTableWord 24 0x1ABD5 = some (.a2l 0xAB 0xD5) := by decide
/-- R55: `L2A -1` is 0x0FFFF and `U2L 0xFF` is 0x300FF. -/
theorem test_assemble_spec_examples :
    assemble ⟨.L2A, -1⟩ = some 0x0FFFF ∧ assemble ⟨.U2L, 0xFF⟩ = some 0x300FF := by decide

/-! Meanings: two values per instruction (95_test_vectors.md sections 1 to 5). -/

theorem test_l2a_negative_corner : respOf (.l2a (bits16 (-9))) = some 0x0055 := by decide
theorem test_l2a_segment_two : respOf (.l2a 1000) = some 0x00FA := by decide
theorem test_a2l_adds_before_shifting : respOf (.a2l 0xAB 0x00) = some (BitVec.ofInt 16 (-5504)) := by decide
theorem test_a2l_segment_one : respOf (.a2l 0 0xC5) = some 264 := by decide
theorem test_l2u_plain_negation : respOf (.l2u (bits16 (-9))) = some 0x007D := by decide
theorem test_l2u_saturates : respOf (.l2u (bits16 (-32768))) = some 0x0000 := by decide
theorem test_u2l_negative : respOf (.u2l 0xFF 0x4E) = some (BitVec.ofInt 16 (-988)) := by decide
theorem test_u2l_negative_zero : respOf (.u2l 0 0x7F) = some 0 := by decide
theorem test_loca_at_threshold : respOf (.loca 31) = some 0 ∧ respOf (.loca 32) = some 1 := by decide
theorem test_loca_above_all : respOf (.loca 0xFFFF) = some 8 := by decide
theorem test_locu_last_segment : respOf (.locu 8191) = some 7 := by decide
theorem test_locu_above_all : respOf (.locu 8192) = some 8 := by decide

/-! The step. -/

/-- Program P1 step 1 as the first command after reset: `L2A 1000`, cmd 0x003E8, resp 0x00FA. -/
theorem test_step_runs_the_fetch_word :
    stateOf (step (State.reset.withFetchWord 24 0x003E8)) =
      some ⟨0x003E8, 0x00FA, [], [⟨0x003E8, 0x00FA⟩]⟩ := by decide
/-- Program P5 step 2: a reserved word is refused. -/
theorem test_step_refuses_reserved_word :
    refusalOf (step (State.reset.withFetchWord 24 0x60000)) = some (.rejected (.reservedOp 6)) := by decide
/-- Program P1 step 2: the low byte of the response 0x00FA carried into A2L answers 1008. -/
theorem test_step_copies_low_byte :
    stateOf (step ⟨0x003E8, 0x00FA, [.copied 1 0 .lowByte], [⟨0x003E8, 0x00FA⟩]⟩) =
      some ⟨0x100FA, 0x03F0, [], [⟨0x100FA, 0x03F0⟩, ⟨0x003E8, 0x00FA⟩]⟩ := by decide
/-- Program P3 step 2: the whole response 0x03F0 carried into L2U answers 0xCE. -/
theorem test_step_copies_whole_word :
    stateOf (step ⟨0x100FA, 0x03F0, [.copied 2 0 .wholeWord], [⟨0x100FA, 0x03F0⟩]⟩) =
      some ⟨0x203F0, 0x00CE, [], [⟨0x203F0, 0x00CE⟩, ⟨0x100FA, 0x03F0⟩]⟩ := by decide
/-- A copy of a response that does not exist is refused (log 7). -/
theorem test_step_refuses_missing_response :
    refusalOf (step ⟨0, 0x00D5, [.copied 1 0 .lowByte], []⟩) = some (.noSuchResponse 0) := by decide
/-- R56: RTA 1000 puts the two commands on the host's list, the second with the low byte of the latest response. -/
theorem test_expand_rta :
    expandAll [.rta 1000, .command ⟨.LOCA, 31⟩] =
      some [.word 0x003E8, .copied 1 0 .lowByte, .word 0x4001F] := by decide

/-! Witnesses: for every statement with hypotheses, states and operands that meet them, each clause at a boundary value. -/

theorem witness_MatchAndMaskSelectTheOperation :
    (0x0FFFF : Cmd) &&& 0x70000 = 0x00000 ∧ (0x10000 : Cmd) &&& 0x70000 = 0x10000 ∧ (0x2FFFF : Cmd) &&& 0x70000 = 0x20000 ∧
    (0x30000 : Cmd) &&& 0x70000 = 0x30000 ∧ (0x4FFFF : Cmd) &&& 0x70000 = 0x40000 ∧ (0x5FFFF : Cmd) &&& 0x70000 = 0x50000 ∧
    (0x60000 : Cmd) &&& 0x70000 = 0x60000 ∧ (0x7FFFF : Cmd) &&& 0x70000 = 0x70000 := by decide
theorem witness_DecodeOfEncodeIsTheInstruction : (Instr.u2l 0xFF 0x00).wf = true := by decide
theorem witness_EncodeOfDecodeIsTheWord : decode 0x5FFFF = .ok (.locu 0xFFFF) := by decide
theorem witness_EveryDataValueIsALegalOperand : (5 : Op).toNat < 6 ∧ (0 : Op).toNat < 6 := by decide
theorem witness_ReservedOpsAreRefused :
    ((sample [.word 0x7FFFF]).pending = .word 0x7FFFF :: [] ∧
      Presented.word? (sample []).evaluations (.word 0x7FFFF) = some 0x7FFFF) ∧
    ((sample [.copied 6 0 .lowByte]).pending = .copied 6 0 .lowByte :: [] ∧
      Presented.word? (sample []).evaluations (.copied 6 0 .lowByte) = some 0x600FF) ∧
    Presented.word? (sample []).evaluations (.word 0x5FFFF) = some 0x5FFFF := by decide
/-- R52 for a copied entry: the host makes a word with a reserved op of a response, and it is refused. -/
theorem test_step_refuses_copied_reserved_op :
    refusalOf (step (sample [.copied 6 0 .lowByte])) = some (.rejected (.reservedOp 6)) := by decide
theorem witness_StepRunsTheDecodedInstruction :
    (sample [.copied 3 0 .lowByte]).pending = .copied 3 0 .lowByte :: [] ∧
    Presented.word? (sample [.copied 3 0 .lowByte]).evaluations (.copied 3 0 .lowByte) = some 0x300FF ∧
    decode 0x300FF = .ok (.u2l 0 0xFF) ∧
    stateOf (exec (.u2l 0 0xFF) { sample [.copied 3 0 .lowByte] with cmd := 0x300FF, pending := [] }) =
      some ⟨0x300FF, 0, [], [⟨0x20000, 0x00FF⟩]⟩ := by decide
theorem witness_StepWithEmptyListKeepsThePorts : (sample []).pending = [] := by decide
theorem witness_StepAnswersTheWrapperFunction :
    (sample [.copied 3 0 .wholeWord]).pending = .copied 3 0 .wholeWord :: [] ∧
    Presented.word? (sample []).evaluations (.copied 3 0 .wholeWord) = some 0x300FF ∧
    (sample [.word 0x07FFF]).pending = .word 0x07FFF :: [] ∧ (BitVec.extractLsb' 16 3 (0x07FFF : Cmd)).toNat = 0 ∧
    (BitVec.extractLsb' 16 3 (0x1FFAA : Cmd)).toNat = 1 ∧ (BitVec.extractLsb' 16 3 (0x28000 : Cmd)).toNat = 2 ∧
    (BitVec.extractLsb' 16 3 (0x30080 : Cmd)).toNat = 3 ∧ (BitVec.extractLsb' 16 3 (0x40000 : Cmd)).toNat = 4 ∧
    (BitVec.extractLsb' 16 3 (0x5FFFF : Cmd)).toNat = 5 ∧ (BitVec.extractLsb' 16 3 (0x60000 : Cmd)).toNat = 6 ∧
    (BitVec.extractLsb' 16 3 (0x7FFFF : Cmd)).toNat = 7 := by decide
theorem sample_inv (pending : List Presented) : Inv (sample pending) :=
  ⟨by change g711Core 0x20000 = some 0x00FF; decide, by intro e he; rw [List.mem_singleton.mp he]; decide⟩
theorem witness_EveryStepKeepsPortsSettledAndRecordsSound :
    Inv (sample [.word 0x100D5]) ∧
    stateOf (step (sample [.word 0x100D5])) = some ⟨0x100D5, 8, [], [⟨0x100D5, 8⟩, ⟨0x20000, 0x00FF⟩]⟩ :=
  ⟨sample_inv _, by decide⟩
theorem witness_ObligingHostIsNeverStopped : HostObeys (sample [.word 0x50000, .copied 3 1 .lowByte]) := by decide
theorem witness_RunRecordsEachWordsOwnEvaluation :
    ∀ e ∈ [(⟨0x41000, 8⟩ : Evaluation), ⟨0x300FF, 0⟩, ⟨0x41000, 8⟩], Sound e := by decide
theorem witness_LocateCountsEntriesAndBits : Ascending aTab := by decide
theorem witness_LocateIsMonotone : Ascending uTab ∧ 8191 ≤ 8192 := by decide
theorem witness_ArithmeticShiftIsFloorAndCopiesTheSign :
    16 ≤ 16 ∧ ∀ k < 16, (0xFFFF : BitVec 16).getLsbD k =
      if k + 16 < 16 then (0x8000 : BitVec 16).getLsbD (k + 16) else (0x8000 : BitVec 16).getLsbD 15 := by decide
theorem witness_PackedFieldsAreTheirSum : 15 ≤ 15 ∧ 7 ≤ 7 := by decide
theorem witness_IntermediateValuesStayInRange : IsSample (-32768) ∧ IsSample 32767 := by decide
theorem witness_MantissaSitsBelowTheLeadingOne :
    (locate 63 aTab = 1 ∧ 1 ≤ 1) ∧ (locate 64 aTab = 2 ∧ 2 ≤ 2 ∧ 2 ≤ 7) ∧ (locate 4095 aTab = 7 ∧ 2 ≤ 7 ∧ 7 ≤ 7) ∧
    (locate 33 uTab = 0 ∧ 33 ≤ 33 ∧ 0 ≤ 7) ∧ (locate 8191 uTab = 7 ∧ 33 ≤ 8191 ∧ 7 ≤ 7) := by decide
/-- 95_test_vectors.md section 8.3: 240..255 is 0xDA, -32768..-31745 is 0x2A. -/
theorem witness_ALawEncoderIntervals :
    (0 < 8 ∧ 15 < 16 ∧ IsSample 255 ∧ (0 : Int) ≤ 255 ∧ alawLow 0 15 ≤ 255 ∧ (255 : Int) ≤ alawLow 0 15 + alawStep 0 - 1 ∧
      respOf (.l2a (bits16 255)) = some 0xDA) ∧
    (7 < 8 ∧ 15 < 16 ∧ IsSample (-32768) ∧ (-32768 : Int) < 0 ∧ -(alawLow 7 15 + alawStep 7) ≤ -32768 ∧
      (-32768 : Int) ≤ -alawLow 7 15 - 1 ∧ respOf (.l2a (bits16 (-32768))) = some 0x2A) := by decide
theorem witness_ALawRoundTripIsMonotone : IsSample (-32768) ∧ IsSample 32767 ∧ (-32768 : Int) ≤ 32767 := by decide
theorem witness_ALawDecoderAnswersTheMidpoint : 7 < 8 ∧ alawDecoder 0xFA = alawDecoder 0xFA := by decide
theorem witness_ALawEncodeAfterDecode : IsSample (-32768) := by decide
/-- 95_test_vectors.md section 4: -32768 comes back as -32256. -/
theorem witness_ALawRoundTripError : IsSample (-32768) ∧ rta (-32768) = -32256 ∧ 7 < 8 := by decide
/-- 95_test_vectors.md section 5.1: 32636 is the first sample of step 6, 32640 the first the clip changes. -/
theorem witness_ULawClipAndSaturation :
    IsSample 32636 ∧ (32636 : Int) ≤ 32636 ∧ IsSample 32640 ∧ IsSample (-32633) ∧ (-32633 : Int) ≤ -32633 ∧
    IsSample (-32637) ∧ 7903 ≤ 7903 := by decide
theorem witness_ULawNegativeZeroIsNeverProduced :
    stateOf (exec (.l2u 0) (sample [])) = some { sample [] with resp := 0x00FF } ∧ (0xFF : Code) ≠ 0x7F := by decide
theorem witness_ULawSignAsymmetry : (1 : Int) ≤ 1 ∧ (1 : Int) ≤ 32768 ∧ (32768 : Int) ≤ 32768 := by decide
/-- 95_test_vectors.md section 8.4: 0..3 is 0xFF, -8..-1 is 0x7E, 31612..32767 is 0x80. -/
theorem witness_ULawEncoderIntervals :
    (0 < 8 ∧ 0 < 16 ∧ IsSample 3 ∧ (0 : Int) ≤ 3 ∧ ulawLow 0 0 ≤ 3 ∧ (3 : Int) ≤ ulawLow 0 0 + ulawStep 0 - 1 ∧
      respOf (.l2u (bits16 3)) = some 0xFF) ∧
    (7 < 8 ∧ 15 < 16 ∧ IsSample 32767 ∧ (0 : Int) ≤ 32767 ∧ ulawLow 7 15 ≤ 32767 ∧
      respOf (.l2u (bits16 32767)) = some 0x80) ∧
    (0 < 8 ∧ 1 < 16 ∧ IsSample (-8) ∧ (-8 : Int) < 0 ∧ -(ulawLow 0 1 + ulawStep 0 - 4) ≤ -8 ∧ (-8 : Int) ≤ -(ulawLow 0 1 - 3) ∧
      respOf (.l2u (bits16 (-8))) = some 0x7E) := by decide
theorem witness_ULawRoundTripIsMonotone : IsSample (-1) ∧ IsSample 0 ∧ (-1 : Int) ≤ 0 := by decide
theorem witness_ULawDecoderSignBitAndTheTwoZeros : ulawDecoder 0xFF = ulawDecoder 0x7F := by decide
theorem witness_ULawEncodeAfterDecode : IsSample 32767 := by decide
/-- 95_test_vectors.md section 5: the errors -511 at 32635, -7 at -1, 644 at -32768. -/
theorem witness_ULawRoundTripError :
    ((0 : Int) ≤ 32635 ∧ (32635 : Int) ≤ 32635 ∧ rtu 32635 = 32124) ∧
    ((-32635 : Int) ≤ -1 ∧ (-1 : Int) < 0 ∧ rtu (-1) = -8) ∧ 7 < 8 ∧ IsSample (-32768) ∧ rtu (-32768) = -32124 := by decide
theorem witness_RoundTripLinesRunAsTwoEvaluations : IsSample (-1) := by decide
theorem witness_CommandLinesAssembleToTheirInstruction :
    IsSample (-32768) ∧ ¬IsSample 32768 ∧ ((256 : Int) < 0 ∨ (255 : Int) < 256) ∧ ((-1 : Int) < 0 ∨ (65535 : Int) < -1) := by decide
theorem witness_OnlyReservedOpsHaveNoOperationAndNoResult :
    BitVec.extractLsb' 16 3 (0x60000 : Cmd) = 0b110 ∧ BitVec.extractLsb' 16 3 (0x7FFFF : Cmd) = 0b111 ∧
    ¬(BitVec.extractLsb' 16 3 (0x5FFFF : Cmd) = 0b110 ∨ BitVec.extractLsb' 16 3 (0x5FFFF : Cmd) = 0b111) := by decide
theorem witness_WrapperComputesTheSelectedOperation :
    (BitVec.extractLsb' 16 3 (0x08000 : Cmd)).toNat = 0 ∧ (BitVec.extractLsb' 16 3 (0x1FF00 : Cmd)).toNat = 1 ∧
    (BitVec.extractLsb' 16 3 (0x27FFF : Cmd)).toNat = 2 ∧ (BitVec.extractLsb' 16 3 (0x3007F : Cmd)).toNat = 3 ∧
    (BitVec.extractLsb' 16 3 (0x4FFFF : Cmd)).toNat = 4 ∧ (BitVec.extractLsb' 16 3 (0x50000 : Cmd)).toNat = 5 ∧
    (BitVec.extractLsb' 16 3 (0x6FFFF : Cmd)).toNat = 6 ∧ (BitVec.extractLsb' 16 3 (0x70000 : Cmd)).toNat = 7 := by decide

end Sys2Proof.Tests
end

section
/-! SUPPORT. The response an instruction computes, as a function of its operand alone, and the sign-copying shift of a
16-bit word; the statements about the scope rules R3, R4 and R7 follow from these. -/
namespace Sys2Proof.Proofs
open Sys2Proof Sys2Proof.Machine

/-- The value the selected block drives on the response port: a function of the instruction, with no state in it (R3, R51). -/
def responseOf : Instr → Resp
  | .l2a pcm => zext16 (alawEncoder pcm)
  | .a2l _ code => alawDecoder code
  | .l2u pcm => zext16 (ulawEncoder pcm)
  | .u2l _ code => ulawDecoder code
  | .loca value => zext16 (segmentLocator aTab value)
  | .locu value => zext16 (segmentLocator uTab value)

/-- Every instruction completes in every state, with the response port driven and nothing else touched. -/
theorem exec_eq_drive_responseOf (i : Instr) (s : State) : exec i s = .next (s.drive (responseOf i)) := by
  cases i with
  | l2a pcm => exact exec_l2a pcm s
  | a2l ignored code => exact exec_a2l ignored code s
  | l2u pcm => exact exec_l2u pcm s
  | u2l ignored code => exact exec_u2l ignored code s
  | loca value => exact exec_loca value s
  | locu value => exact exec_locu value s

/-- Settles O10: the response is `responseOf`, which no state enters. -/
theorem execDrivesTheResponseFromTheOperandAlone : Obligations.ExecDrivesTheResponseFromTheOperandAlone :=
  fun i => ⟨responseOf i, exec_eq_drive_responseOf i⟩

/-- The shift rounds toward minus infinity (R7). -/
theorem asr_eq_floor (a : Int) (n : Nat) : asr a n = ⌊(a : ℚ) / 2 ^ n⌋ := by
  have h := Rat.floor_intCast_div_natCast a (2 ^ n)
  push_cast at h
  rw [asr_def, h]

/-- On a 16-bit word `asr` is the sign-copying shift of the word (R7). -/
theorem asr_sint16 (w : BitVec 16) (n : Nat) : asr (sint16 w) n = sint16 (w.sshiftRight n) := by
  rw [asr_def, sint16_def, sint16_def, BitVec.toInt_sshiftRight, Int.shiftRight_eq_div_pow]
  push_cast
  rfl

/-- The bits of the shifted word: moved down by n, and bit 15 where the word has none. -/
theorem eq_sshiftRight_of_getLsbD {w u : BitVec 16} {n : Nat}
    (h : ∀ k < 16, u.getLsbD k = if k + n < 16 then w.getLsbD (k + n) else w.getLsbD 15) : u = w.sshiftRight n := by
  refine BitVec.eq_of_getLsbD_eq fun k hk => ?_
  have hlow : ¬16 ≤ k := Nat.not_le.mpr hk
  rw [h k hk, BitVec.getLsbD_sshiftRight, BitVec.msb_eq_getLsbD_last]
  simp [hlow, Nat.add_comm k n]

/-- Settles O21: the floor is Lean's integer division, and a word with the given bits is the sign-copying shift. -/
theorem arithmeticShiftIsFloorAndCopiesTheSign : Obligations.ArithmeticShiftIsFloorAndCopiesTheSign := by
  refine ⟨asr_eq_floor, fun w u n _ hbits => ?_, by decide, by decide, by decide, by decide⟩
  rw [eq_sshiftRight_of_getLsbD hbits]
  exact asr_sint16 w n

end Sys2Proof.Proofs
end

section
/-! SUPPORT. One equation of the decoder per op value, the wrapper's function as the decoder followed by `responseOf`, and
each block's response as a whole response word; the statements about R51 to R53 follow from these. -/
namespace Sys2Proof.Proofs
open Sys2Proof Sys2Proof.Machine

theorem decode_of_op_zero {w : Cmd} (h : (opField w).toNat = 0) : decode w = .ok (.l2a (operandField w)) := by
  simp only [decode, h]

theorem decode_of_op_one {w : Cmd} (h : (opField w).toNat = 1) :
    decode w = .ok (.a2l (highByte (operandField w)) (lowByte (operandField w))) := by
  simp only [decode, h]

theorem decode_of_op_two {w : Cmd} (h : (opField w).toNat = 2) : decode w = .ok (.l2u (operandField w)) := by
  simp only [decode, h]

theorem decode_of_op_three {w : Cmd} (h : (opField w).toNat = 3) :
    decode w = .ok (.u2l (highByte (operandField w)) (lowByte (operandField w))) := by
  simp only [decode, h]

theorem decode_of_op_four {w : Cmd} (h : (opField w).toNat = 4) : decode w = .ok (.loca (operandField w)) := by
  simp only [decode, h]

theorem decode_of_op_five {w : Cmd} (h : (opField w).toNat = 5) : decode w = .ok (.locu (operandField w)) := by
  simp only [decode, h]

/-- The op values from 6 on are the reserved ones (R52). -/
theorem decode_of_six_le_op {w : Cmd} (h : 6 ≤ (opField w).toNat) : decode w = .error (.reservedOp (opField w)) := by
  obtain h6 | h7 : (opField w).toNat = 6 ∨ (opField w).toNat = 7 := by omega
  · simp only [decode, h6]
  · simp only [decode, h7]

theorem exists_decode_ok_of_op_lt_six {w : Cmd} (h : (opField w).toNat < 6) : ∃ i, decode w = .ok i := by
  obtain h0 | h1 | h2 | h3 | h4 | h5 : (opField w).toNat = 0 ∨ (opField w).toNat = 1 ∨ (opField w).toNat = 2 ∨
      (opField w).toNat = 3 ∨ (opField w).toNat = 4 ∨ (opField w).toNat = 5 := by omega
  · exact ⟨_, decode_of_op_zero h0⟩
  · exact ⟨_, decode_of_op_one h1⟩
  · exact ⟨_, decode_of_op_two h2⟩
  · exact ⟨_, decode_of_op_three h3⟩
  · exact ⟨_, decode_of_op_four h4⟩
  · exact ⟨_, decode_of_op_five h5⟩

/-- The wrapper's function of the command word is the decoder followed by the decoded instruction's response (R51). -/
theorem g711Core_eq_map_decode (w : Cmd) : g711Core w = (decode w).toOption.map responseOf := by
  have hop : (w.extractLsb' 16 3).toNat = (opField w).toNat := rfl
  simp only [g711Core, hop]
  split_ifs with h0 h1 h2 h3 h4 h5
  · rw [decode_of_op_zero h0]; rfl
  · rw [decode_of_op_one h1]; rfl
  · rw [decode_of_op_two h2]; rfl
  · rw [decode_of_op_three h3]; rfl
  · rw [decode_of_op_four h4]; rfl
  · rw [decode_of_op_five h5]; rfl
  · rw [decode_of_six_le_op (by omega)]; rfl

theorem g711Core_of_decode_ok {w : Cmd} {i : Instr} (h : decode w = .ok i) : g711Core w = some (responseOf i) := by
  rw [g711Core_eq_map_decode, h]
  rfl

theorem g711Core_of_decode_error {w : Cmd} {why : DecodeReject} (h : decode w = .error why) : g711Core w = none := by
  rw [g711Core_eq_map_decode, h]
  rfl

theorem opField_encode (i : Instr) : opField (encode i) = opNumber i := opField_commandWord _ _

/-- No instruction encodes to a word of a reserved op (R52). -/
theorem encode_ne_of_six_le_op {w : Cmd} (h : 6 ≤ (opField w).toNat) (i : Instr) : encode i ≠ w := by
  rintro rfl
  rw [opField_encode] at h
  exact absurd (opNumber_lt i) (Nat.not_lt.mpr h)

theorem op_reserved_iff_six_le (op : Op) : op = 0b110 ∨ op = 0b111 ↔ 6 ≤ op.toNat := by
  revert op
  decide

/-- Settles O50: the reserved op values are those from 6 on, and the decoder and the wrapper's function are split by that
bound. -/
theorem onlyReservedOpsHaveNoOperationAndNoResult : Obligations.OnlyReservedOpsHaveNoOperationAndNoResult := by
  intro w
  change (opField w = 0b110 ∨ opField w = 0b111 → _) ∧ (¬(opField w = 0b110 ∨ opField w = 0b111) → _)
  rw [op_reserved_iff_six_le]
  constructor
  · intro hop
    have hdecode := decode_of_six_le_op hop
    exact ⟨hdecode, encode_ne_of_six_le_op hop, g711Core_of_decode_error hdecode⟩
  · intro hop
    obtain ⟨i, hdecode⟩ := exists_decode_ok_of_op_lt_six (Nat.not_le.mp hop)
    exact ⟨i, responseOf i, hdecode, g711Core_of_decode_ok hdecode⟩

theorem bitAnd_quantMask_lt (a : Nat) : bitAnd a quantMask < 16 := by
  rw [bitAnd_quantMask]
  exact Nat.mod_lt a (by decide)

theorem alawMant_lt (mag seg : Nat) : alawMant mag seg < 16 := by
  unfold alawMant
  split
  · exact bitAnd_quantMask_lt _
  · exact bitAnd_quantMask_lt _

theorem ulawMant_lt (mag seg : Nat) : ulawMant mag seg < 16 := bitAnd_quantMask_lt _

theorem packFields_lt {seg mant : Nat} (hseg : seg < 8) (hmant : mant < 16) : packFields seg mant < 2 ^ 7 := by
  refine Nat.or_lt_two_pow ?_ (by omega)
  rw [shl_eq_mul]
  simp only [segShift]
  omega

theorem alawPreMask_lt (mag : Nat) : alawPreMask mag < 2 ^ 7 := by
  simp only [alawPreMask]
  split
  · decide
  · exact packFields_lt (by omega) (alawMant_lt _ _)

theorem ulawPreMask_lt (mag : Nat) : ulawPreMask mag < 2 ^ 7 := by
  simp only [ulawPreMask]
  split
  · decide
  · exact packFields_lt (by omega) (ulawMant_lt _ _)

/-- A code is a byte (R4). -/
theorem linear2alaw_lt (pcm : Int) : linear2alaw pcm < 2 ^ 8 := by
  refine Nat.xor_lt_two_pow ((alawPreMask_lt _).trans (by decide)) ?_
  unfold alawMask
  split <;> decide

/-- A code is a byte (R4). -/
theorem linear2ulaw_lt (pcm : Int) : linear2ulaw pcm < 2 ^ 8 := by
  refine Nat.xor_lt_two_pow ((ulawPreMask_lt _).trans (by decide)) ?_
  unfold ulawMask
  split <;> decide

theorem zext16_alawEncoder (pcm : Sample) : zext16 (alawEncoder pcm) = BitVec.ofNat 16 (linear2alaw pcm.toInt) :=
  BitVec.setWidth_ofNat_of_le_of_lt (by decide) (linear2alaw_lt _)

theorem zext16_ulawEncoder (pcm : Sample) : zext16 (ulawEncoder pcm) = BitVec.ofNat 16 (linear2ulaw pcm.toInt) :=
  BitVec.setWidth_ofNat_of_le_of_lt (by decide) (linear2ulaw_lt _)

theorem zext16_segmentLocator (T : Table) (value : LocValue) :
    zext16 (segmentLocator T value) = BitVec.ofNat 16 (locate value.toNat T) :=
  BitVec.setWidth_ofNat_of_le_of_lt (by decide) ((locate_le_eight _ T).trans_lt (by decide))

theorem toNat_lowByte (x : Operand) : (lowByte x).toNat = x.toNat % 256 := by
  simp [lowByte]

theorem alawDecoder_lowByte (x : Operand) : alawDecoder (lowByte x) = BitVec.ofInt 16 (alaw2linear (x.toNat % 256)) := by
  rw [alawDecoder, toNat_lowByte, bits16_def]

theorem ulawDecoder_lowByte (x : Operand) : ulawDecoder (lowByte x) = BitVec.ofInt 16 (ulaw2linear (x.toNat % 256)) := by
  rw [ulawDecoder, toNat_lowByte, bits16_def]

/-- The wrapper's function and the decoded instruction, run in any state, give the one response of the instruction. -/
theorem g711Core_and_exec_of_decode_ok {w : Cmd} {i : Instr} {r : Resp} (hdecode : decode w = .ok i)
    (hresp : responseOf i = r) :
    g711Core w = some r ∧ ∃ j : Instr, decode w = .ok j ∧ ∀ s : State, exec j s = .next { s with resp := r } := by
  subst hresp
  exact ⟨g711Core_of_decode_ok hdecode, i, hdecode, exec_eq_drive_responseOf i⟩

/-- Settles O51: each op value decodes to one instruction, and its response is the selected function of the operand field. -/
theorem wrapperComputesTheSelectedOperation : Obligations.WrapperComputesTheSelectedOperation := by
  intro w
  refine ⟨fun h => ?l2a, fun h => ?a2l, fun h => ?l2u, fun h => ?u2l, fun h => ?loca, fun h => ?locu, fun h => ?reserved⟩
  case l2a => exact g711Core_and_exec_of_decode_ok (decode_of_op_zero h) (zext16_alawEncoder _)
  case a2l => exact g711Core_and_exec_of_decode_ok (decode_of_op_one h) (alawDecoder_lowByte _)
  case l2u => exact g711Core_and_exec_of_decode_ok (decode_of_op_two h) (zext16_ulawEncoder _)
  case u2l => exact g711Core_and_exec_of_decode_ok (decode_of_op_three h) (ulawDecoder_lowByte _)
  case loca => exact g711Core_and_exec_of_decode_ok (decode_of_op_four h) (zext16_segmentLocator aTab _)
  case locu => exact g711Core_and_exec_of_decode_ok (decode_of_op_five h) (zext16_segmentLocator uTab _)
  case reserved =>
    have hop : 6 ≤ (opField w).toNat := h.elim Eq.ge fun h7 => (by decide : 6 ≤ 7).trans h7.ge
    have hdecode := decode_of_six_le_op hop
    exact ⟨g711Core_of_decode_error hdecode, fun i hi => by simp [hdecode] at hi⟩

end Sys2Proof.Proofs
end

section
/-! SUPPORT. The scan of R60 is the library's index of the first list entry that meets a test; the statements about the
segment locator follow from what the library says of that index. -/
namespace Sys2Proof.Proofs
open Sys2Proof Sys2Proof.Machine

theorem scan_eq_add_findIdx (value : Nat) (ts : List Nat) (i : Nat) :
    scan value ts i = i + ts.findIdx (fun t => decide (value ≤ t)) := by
  induction ts generalizing i with
  | nil => rfl
  | cons t ts ih =>
    rw [scan_cons, List.findIdx_cons, ih]
    by_cases hle : value ≤ t
    · simp [hle]
    · simp only [hle, decide_false, cond_false, if_false]
      omega

theorem locate_eq_findIdx (value : Nat) (T : Table) :
    locate value T = T.toList.findIdx (fun t => decide (value ≤ t)) := by
  rw [locate, scan_eq_add_findIdx, Nat.zero_add]

/-- The first index whose threshold is not exceeded, for any eight naturals (R60, R62). -/
theorem locate_eq_index_iff (value : Nat) (T : Table) (i : Fin 8) :
    locate value T = i.val ↔ value ≤ T[i] ∧ ∀ j : Fin 8, j < i → T[j] < value := by
  have hi : i.val < T.toList.length := by simp
  rw [locate_eq_findIdx, List.findIdx_eq hi]
  simp only [Vector.getElem_toList, decide_eq_true_eq, decide_eq_false_iff_not, Nat.not_le]
  exact and_congr_right fun _ =>
    ⟨fun hbefore j hj => hbefore j.val hj, fun hbefore j hj => hbefore ⟨j, hj.trans i.isLt⟩ hj⟩

/-- NOSEG (R17) exactly when every threshold is exceeded (R60). -/
theorem locate_eq_eight_iff (value : Nat) (T : Table) : locate value T = 8 ↔ ∀ i : Fin 8, T[i] < value := by
  have hlength : T.toList.length = 8 := Vector.length_toList
  calc locate value T = 8
    _ ↔ T.toList.findIdx (fun t => decide (value ≤ t)) = T.toList.length := by rw [locate_eq_findIdx, hlength]
    _ ↔ ∀ t ∈ T.toList, t < value := by
      rw [List.findIdx_eq_length]
      simp only [decide_eq_false_iff_not, Nat.not_le]
    _ ↔ ∀ i (hi : i < T.toList.length), T.toList[i] < value := List.forall_mem_iff_getElem
    _ ↔ ∀ i : Fin 8, T[i] < value :=
      ⟨fun h i => h i.val (i.isLt.trans_eq hlength.symm), fun h i hi => h ⟨i, hi.trans_eq hlength⟩⟩

theorem exec_loca_eq_locate (v : LocValue) (s : State) :
    exec (.loca v) s = .next { s with resp := BitVec.ofNat 16 (locate v.toNat aTab) } := by
  rw [exec_loca, zext16_segmentLocator, State.drive]

theorem exec_locu_eq_locate (v : LocValue) (s : State) :
    exec (.locu v) s = .next { s with resp := BitVec.ofNat 16 (locate v.toNat uTab) } := by
  rw [exec_locu, zext16_segmentLocator, State.drive]

/-- Settles O17: the scan is the library's first index, and the 4-bit seg port loses nothing of it. -/
theorem locateReturnsTheFirstThresholdNotExceeded : Obligations.LocateReturnsTheFirstThresholdNotExceeded :=
  ⟨fun value T => ⟨locate_eq_index_iff value T, locate_eq_eight_iff value T, locate_le_eight value T⟩,
    fun v s => ⟨exec_loca_eq_locate v s, exec_locu_eq_locate v s⟩⟩

end Sys2Proof.Proofs
end

section
/-! SUPPORT. Each named quantity of R70 in the integer arithmetic of the statement: the segment by the range map of R64, the
magnitude, the mantissa by division and remainder, the packed fields as a sum; the statement about L2A follows from these. -/
namespace Sys2Proof.Proofs
open Sys2Proof Sys2Proof.Machine Sys2Proof.Spec

/-- The scan of ATAB, written out entry by entry, is the range map of R64. -/
theorem locate_aTab (value : Nat) : locate value aTab = aSegment value := rfl

/-- The mantissa lies below the shifted segment, so the or of R42 is a sum. -/
theorem packFields_eq_add {seg mant : Nat} (hmant : mant < 16) : packFields seg mant = 16 * seg + mant :=
  calc packFields seg mant
    _ = seg <<< 4 + mant := (Nat.shiftLeft_add_eq_or_of_lt (i := 4) hmant seg).symm
    _ = 16 * seg + mant := by rw [Nat.shiftLeft_eq, Nat.mul_comm]

theorem alawMant_eq_div_mod (mag seg : Nat) :
    alawMant mag seg = if seg < 2 then mag / 2 % 16 else mag / 2 ^ seg % 16 := by
  simp only [alawMant, bitAnd_quantMask, shr_eq_div, Nat.pow_one]

theorem alawMag_eq_toNat_ite (v : Int) : alawMag v = (if v ≥ 0 then v else -v - 1).toNat :=
  (apply_ite Int.toNat (v ≥ 0) v (-v - 1)).symm

/-- R70 steps 3 to 5. -/
theorem alawPreMask_eq (mag : Nat) :
    alawPreMask mag = if aSegment mag ≥ 8 then 0x7F else 16 * aSegment mag +
      (if aSegment mag < 2 then mag / 2 % 16 else mag / 2 ^ aSegment mag % 16) := by
  rw [← alawMant_eq_div_mod, ← packFields_eq_add (alawMant_lt _ _), ← locate_aTab]
  rfl

theorem exec_l2a_eq_linear2alaw (pcm : Sample) (s : State) :
    exec (.l2a pcm) s = .next { s with resp := BitVec.ofNat 16 (linear2alaw pcm.toInt) } := by
  rw [exec_l2a, zext16_alawEncoder, State.drive]

/-- Settles O25: the response is `linear2alaw` of the sample, whose magnitude and pre-mask byte are those of the numbered
steps; its shift and mask (R70 steps 1 and 2) are the statement's by definition. -/
theorem linearToALawFollowsTheNumberedSteps : Obligations.LinearToALawFollowsTheNumberedSteps := by
  intro pcm s v mask mag seg aval
  have hmag : alawMag (alawShifted pcm.toInt) = mag := alawMag_eq_toNat_ite v
  have hcode : linear2alaw pcm.toInt = aval ^^^ mask :=
    calc linear2alaw pcm.toInt
      _ = alawPreMask (alawMag (alawShifted pcm.toInt)) ^^^ mask := rfl
      _ = aval ^^^ mask := by rw [hmag, alawPreMask_eq]
  rw [exec_l2a_eq_linear2alaw, hcode]

end Sys2Proof.Proofs
end

section
/-! SUPPORT. The fields of an unmasked byte (R47) by division and remainder, shared by the decoders of both laws, and the
steps of R80 over them; the statement about A2L follows from these. -/
namespace Sys2Proof.Proofs
open Sys2Proof Sys2Proof.Machine

theorem mantField_eq_mod (x : Nat) : mantField x = x % 16 := bitAnd_quantMask x

/-- The segment mask is three ones above the mantissa, so the shifted field is a remainder of the shifted byte. -/
theorem segField_eq_div_mod (x : Nat) : segField x = x / 16 % 8 :=
  calc segField x
    _ = (x >>> 4) &&& (0x70 >>> 4) := Nat.shiftRight_and_distrib
    _ = (x >>> 4) % 8 := Nat.and_two_pow_sub_one_eq_mod _ 3
    _ = x / 16 % 8 := by rw [Nat.shiftRight_eq_div_pow]

theorem signField_eq_testBit (x : Nat) : signField x = x.testBit 7 := by
  have hbit : bitAnd x signBit = (x.testBit 7).toNat * 2 ^ 7 := Nat.and_two_pow x 7
  rw [signField, hbit]
  cases x.testBit 7 <;> rfl

/-- On a byte, bit 7 is the comparison with 128. -/
theorem signField_eq_true_iff {x : Nat} (hx : x < 256) : signField x = true ↔ 128 ≤ x := by
  rw [signField_eq_testBit, Nat.testBit_eq_decide_div_mod_eq, decide_eq_true_eq]
  omega

/-- R80 steps 2 and 3. -/
theorem alawReconstruct_eq (x : Nat) :
    alawReconstruct x =
      if x / 16 % 8 = 0 then x % 16 * 16 + 8
      else if x / 16 % 8 = 1 then x % 16 * 16 + 0x108
      else (x % 16 * 16 + 0x108) * 2 ^ (x / 16 % 8 - 1) := by
  simp only [alawReconstruct, mantField_eq_mod, segField_eq_div_mod, shl_eq_mul, aOff0, aOff, Nat.reducePow]

theorem exec_a2l_eq_alaw2linear (ignored : BitVec 8) (code : Code) (s : State) :
    exec (.a2l ignored code) s = .next { s with resp := BitVec.ofInt 16 (alaw2linear code.toNat) } := by
  rw [exec_a2l, alawDecoder, bits16_def, State.drive]

/-- R80 steps 1 and 4: the mask undone on the code's bits, and the sign by the comparison with 128. -/
theorem alaw2linear_toNat (code : Code) :
    alaw2linear code.toNat =
      if 128 ≤ (code ^^^ 0x55).toNat then (alawReconstruct (code ^^^ 0x55).toNat : Int)
      else -(alawReconstruct (code ^^^ 0x55).toNat : Int) := by
  have hmask : bitXor code.toNat aMaskNeg = (code ^^^ 0x55).toNat := (BitVec.toNat_xor code 0x55).symm
  simp only [alaw2linear, hmask, signField_eq_true_iff (code ^^^ 0x55).isLt]

/-- Settles O26: the response is `alaw2linear` of the code, whose unmasked byte, sign and value before the sign are those
of the numbered steps. -/
theorem aLawToLinearFollowsTheNumberedSteps : Obligations.ALawToLinearFollowsTheNumberedSteps := by
  intro ignored code s x seg t t'
  have ht : alawReconstruct x = t' := alawReconstruct_eq x
  rw [exec_a2l_eq_alaw2linear, alaw2linear_toNat, ht]

end Sys2Proof.Proofs
end

section
/-! SUPPORT. Each named quantity of R90 in the integer arithmetic of the statement: the magnitude by plain negation, the
clip as a minimum, the segment by the range map of R64, the mantissa by division and remainder; the statement about L2U
follows from these. -/
namespace Sys2Proof.Proofs
open Sys2Proof Sys2Proof.Machine Sys2Proof.Spec

/-- The scan of UTAB, written out entry by entry, is the range map of R64. -/
theorem locate_uTab (value : Nat) : locate value uTab = uSegment value := rfl

theorem ulawMag_eq_toNat_ite (v : Int) : ulawMag v = (if v < 0 then -v else v).toNat :=
  (apply_ite Int.toNat (v < 0) (-v) v).symm

/-- The greater-than clip to an inclusive maximum is a minimum. -/
theorem ulawClip_eq_min (mag : Nat) : ulawClip mag = min mag 8159 := by
  rw [ulawClip, clip]
  split <;> omega

theorem ulawBias_eq_add (mag : Nat) : ulawBias mag = mag + 33 := rfl

theorem ulawMant_eq_div_mod (mag seg : Nat) : ulawMant mag seg = mag / 2 ^ (seg + 1) % 16 := by
  rw [ulawMant, bitAnd_quantMask, shr_eq_div]

/-- R90 steps 5 to 7. -/
theorem ulawPreMask_eq (mag : Nat) :
    ulawPreMask mag =
      if uSegment mag ≥ 8 then 0x7F else 16 * uSegment mag + mag / 2 ^ (uSegment mag + 1) % 16 := by
  rw [← ulawMant_eq_div_mod, ← packFields_eq_add (ulawMant_lt _ _), ← locate_uTab]
  rfl

theorem exec_l2u_eq_linear2ulaw (pcm : Sample) (s : State) :
    exec (.l2u pcm) s = .next { s with resp := BitVec.ofNat 16 (linear2ulaw pcm.toInt) } := by
  rw [exec_l2u, zext16_ulawEncoder, State.drive]

/-- Settles O27: the response is `linear2ulaw` of the sample, whose biased magnitude and pre-mask byte are those of the
numbered steps; its shift and mask (R90 steps 1 and 2) are the statement's by definition. -/
theorem linearToULawFollowsTheNumberedSteps : Obligations.LinearToULawFollowsTheNumberedSteps := by
  intro pcm s v mask mag seg uval
  have hmag : ulawBias (ulawClip (ulawMag (ulawShifted pcm.toInt))) = mag := by
    rw [ulawBias_eq_add, ulawClip_eq_min, ulawMag_eq_toNat_ite]
    rfl
  have hcode : linear2ulaw pcm.toInt = uval ^^^ mask :=
    calc linear2ulaw pcm.toInt
      _ = ulawPreMask (ulawBias (ulawClip (ulawMag (ulawShifted pcm.toInt)))) ^^^ mask := rfl
      _ = uval ^^^ mask := by rw [hmag, ulawPreMask_eq]
  rw [exec_l2u_eq_linear2ulaw, hcode]

end Sys2Proof.Proofs
end

section
/-! SUPPORT. The steps of R100 in the integer arithmetic of the statement, over the fields of an unmasked byte proved for
R80; the statement about U2L follows from these. -/
namespace Sys2Proof.Proofs
open Sys2Proof Sys2Proof.Machine

/-- R100 steps 2 and 3. -/
theorem ulawReconstruct_eq (y : Nat) : ulawReconstruct y = (y % 16 * 8 + 132) * 2 ^ (y / 16 % 8) := by
  simp only [ulawReconstruct, mantField_eq_mod, segField_eq_div_mod, shl_eq_mul, bias, Nat.reducePow]

/-- R100 steps 1 and 4: a complement in eight bits is a byte, so its sign is the comparison with 128. -/
theorem ulaw2linear_eq (code : Nat) :
    ulaw2linear code =
      if 128 ≤ 255 - code then (132 : Int) - ulawReconstruct (255 - code)
      else (ulawReconstruct (255 - code) : Int) - 132 := by
  have hbyte : 255 - code < 256 := by omega
  simp only [ulaw2linear, not8_def, signField_eq_true_iff hbyte, bias, Nat.cast_ofNat]

theorem exec_u2l_eq_ulaw2linear (ignored : BitVec 8) (code : Code) (s : State) :
    exec (.u2l ignored code) s = .next { s with resp := BitVec.ofInt 16 (ulaw2linear code.toNat) } := by
  rw [exec_u2l, ulawDecoder, bits16_def, State.drive]

/-- Settles O28: the response is `ulaw2linear` of the code, whose complemented byte, sign and value before the sign are
those of the numbered steps. -/
theorem uLawToLinearFollowsTheNumberedSteps : Obligations.ULawToLinearFollowsTheNumberedSteps := by
  intro ignored code s y t
  have ht : ulawReconstruct y = t := ulawReconstruct_eq y
  rw [exec_u2l_eq_ulaw2linear, ulaw2linear_eq, ht]

end Sys2Proof.Proofs
end

section
/-! SUPPORT. The command word and the instruction determine each other (R50), and the mask of the op field; the statements
about the encoding follow from these. -/
namespace Sys2Proof.Proofs
open Sys2Proof Sys2Proof.Machine

theorem operandField_encode (i : Instr) : operandField (encode i) = operandBits i := operandField_commandWord _ _

/-- The op value selects the decoder's row, and the row takes the operand apart as the encoder put it together. -/
theorem decode_encode (i : Instr) : decode (encode i) = .ok i := by
  have hop : (opField (encode i)).toNat = (opNumber i).toNat := congrArg BitVec.toNat (opField_encode i)
  cases i with
  | l2a pcm => rw [decode_of_op_zero hop, operandField_encode, operandBits]
  | a2l ignored code =>
    rw [decode_of_op_one hop, operandField_encode, operandBits, highByte_joinBytes, lowByte_joinBytes]
  | l2u pcm => rw [decode_of_op_two hop, operandField_encode, operandBits]
  | u2l ignored code =>
    rw [decode_of_op_three hop, operandField_encode, operandBits, highByte_joinBytes, lowByte_joinBytes]
  | loca value => rw [decode_of_op_four hop, operandField_encode, operandBits]
  | locu value => rw [decode_of_op_five hop, operandField_encode, operandBits]

/-- Settles O3: no instruction is ill-formed, and every one is decoded from its word. -/
theorem decodeOfEncodeIsTheInstruction : Obligations.DecodeOfEncodeIsTheInstruction :=
  fun i _ => decode_encode i

/-- A decoded instruction has the word's op value and all of its operand bits. -/
theorem fields_of_decode_ok {w : Cmd} {i : Instr} (h : decode w = .ok i) :
    opNumber i = opField w ∧ operandBits i = operandField w := by
  obtain h0 | h1 | h2 | h3 | h4 | h5 | h6 : (opField w).toNat = 0 ∨ (opField w).toNat = 1 ∨ (opField w).toNat = 2 ∨
      (opField w).toNat = 3 ∨ (opField w).toNat = 4 ∨ (opField w).toNat = 5 ∨ 6 ≤ (opField w).toNat := by omega
  · obtain rfl := Except.ok.inj ((decode_of_op_zero h0).symm.trans h)
    exact ⟨BitVec.eq_of_toNat_eq h0.symm, rfl⟩
  · obtain rfl := Except.ok.inj ((decode_of_op_one h1).symm.trans h)
    exact ⟨BitVec.eq_of_toNat_eq h1.symm, joinBytes_bytes _⟩
  · obtain rfl := Except.ok.inj ((decode_of_op_two h2).symm.trans h)
    exact ⟨BitVec.eq_of_toNat_eq h2.symm, rfl⟩
  · obtain rfl := Except.ok.inj ((decode_of_op_three h3).symm.trans h)
    exact ⟨BitVec.eq_of_toNat_eq h3.symm, joinBytes_bytes _⟩
  · obtain rfl := Except.ok.inj ((decode_of_op_four h4).symm.trans h)
    exact ⟨BitVec.eq_of_toNat_eq h4.symm, rfl⟩
  · obtain rfl := Except.ok.inj ((decode_of_op_five h5).symm.trans h)
    exact ⟨BitVec.eq_of_toNat_eq h5.symm, rfl⟩
  · simp [decode_of_six_le_op h6] at h

/-- Settles O4: a word is its two fields, and decoding keeps both. -/
theorem encodeOfDecodeIsTheWord : Obligations.EncodeOfDecodeIsTheWord := by
  intro w i h
  obtain ⟨hop, hoperand⟩ := fields_of_decode_ok h
  rw [encode, hop, hoperand, commandWord_fields]

/-- Settles O5: a word with an assigned op value decodes, and decoding keeps both of its fields. -/
theorem everyDataValueIsALegalOperand : Obligations.EveryDataValueIsALegalOperand := by
  intro op operand hop
  have hlt : (opField (commandWord op operand)).toNat < 6 := by rwa [opField_commandWord]
  obtain ⟨i, hi⟩ := exists_decode_ok_of_op_lt_six hlt
  have hfields := fields_of_decode_ok hi
  rw [opField_commandWord, operandField_commandWord] at hfields
  exact ⟨i, hi, hfields⟩

/-- The mask 0x70000 of every row keeps the op field and clears the operand. -/
theorem and_opMask (w : Cmd) : w &&& 0x70000 = commandWord (opField w) 0 := by
  have hmask : (0x70000 : Cmd) = commandWord (BitVec.allOnes 3) 0 := by decide
  calc w &&& 0x70000
    _ = commandWord (opField w) (operandField w) &&& commandWord (BitVec.allOnes 3) 0 := by
      rw [hmask, commandWord_fields]
    _ = commandWord (opField w &&& BitVec.allOnes 3) (operandField w &&& 0) := BitVec.and_append
    _ = commandWord (opField w) 0 := congrArg₂ commandWord BitVec.and_allOnes BitVec.and_zero

theorem opField_eq_of_and_opMask {w : Cmd} (op : Op) (h : w &&& 0x70000 = commandWord op 0) : opField w = op := by
  rw [← opField_commandWord (opField w) 0, ← and_opMask, h, opField_commandWord]

/-- Settles O2: the masked word gives the op value, and the decoder has one equation per op value. -/
theorem matchAndMaskSelectTheOperation : Obligations.MatchAndMaskSelectTheOperation := by
  intro w operand
  have hop (op : Op) (h : w &&& 0x70000 = commandWord op 0) : (opField w).toNat = op.toNat :=
    congrArg BitVec.toNat (opField_eq_of_and_opMask op h)
  refine ⟨fun h => ?l2a, fun h => ?a2l, fun h => ?l2u, fun h => ?u2l, fun h => ?loca, fun h => ?locu, fun h => ?six,
    fun h => ?seven⟩
  case l2a => exact decode_of_op_zero (hop 0 h)
  case a2l => exact decode_of_op_one (hop 1 h)
  case l2u => exact decode_of_op_two (hop 2 h)
  case u2l => exact decode_of_op_three (hop 3 h)
  case loca => exact decode_of_op_four (hop 4 h)
  case locu => exact decode_of_op_five (hop 5 h)
  case six => rw [decode_of_six_le_op (hop 6 h).ge, opField_eq_of_and_opMask 6 h]
  case seven => rw [decode_of_six_le_op ((by decide : 6 ≤ 7).trans (hop 7 h).ge), opField_eq_of_and_opMask 7 h]

/-- Settles O1: eight closed words, decoded by evaluation. -/
theorem operationMapWordsDecode : Obligations.OperationMapWordsDecode := by
  unfold Obligations.OperationMapWordsDecode
  decide

end Sys2Proof.Proofs
end

section
/-! SUPPORT. What a step answers when the head of the host's list stands for a command word: the decoder's verdict, and with
it the wrapper's function, decide it. The statements about steps and runs follow from these. -/
namespace Sys2Proof.Proofs
open Sys2Proof Sys2Proof.Machine Sys2Proof.Safety

section HeadStandsForWord
variable {s : State} {p : Presented} {rest : List Presented} {w : Cmd}
variable (hp : s.pending = p :: rest) (hw : Presented.word? s.evaluations p = some w)
include hp hw

theorem step_of_decode_ok {i : Instr} (hd : decode w = .ok i) : step s = recorded (exec i (s.present w rest)) := by
  simp only [step, fetch_cons_some hp hw, hd]

theorem step_of_decode_error {why : DecodeReject} (hd : decode w = .error why) : step s = .refused (.rejected why) := by
  simp only [step, fetch_cons_some hp hw, hd]

/-- Where the wrapper's function has a value, the step drives it, takes the entry off the list and records the pair. -/
theorem step_of_g711Core {r : Resp} (hr : g711Core w = some r) :
    step s = .next ⟨w, r, rest, ⟨w, r⟩ :: s.evaluations⟩ := by
  cases hd : decode w with
  | error why => simp [g711Core_of_decode_error hd] at hr
  | ok i =>
    rw [g711Core_of_decode_ok hd, Option.some.injEq] at hr
    rw [step_of_decode_ok hp hw hd, exec_eq_drive_responseOf, hr]
    rfl

end HeadStandsForWord

/-- A response keeps the ports settled, and recording its pair keeps the record sound. -/
theorem inv_record_drive {s : State} {w : Cmd} {rest : List Presented} {r : Resp} (hs : Inv s)
    (hr : g711Core w = some r) : Inv ((s.present w rest).drive r).record :=
  ⟨hr, List.forall_mem_cons.mpr ⟨hr, hs.sound⟩⟩

/-- Settles O11: a step idles, or drives the decoded instruction's response, which is the wrapper's function of the word. -/
theorem everyStepKeepsPortsSettledAndRecordsSound : Obligations.EveryStepKeepsPortsSettledAndRecordsSound := by
  intro s s' hs hstep
  obtain ⟨-, rfl⟩ | ⟨p, rest, w, i, u, -, -, hd, hu, rfl⟩ := step_cases hstep
  · exact hs
  · rw [exec_eq_drive_responseOf, Host.Outcome.next.injEq] at hu
    subst hu
    exact inv_record_drive hs (g711Core_of_decode_ok hd)

/-- Settles O12: the response at reset is the wrapper's function of the word at reset, and nothing is recorded. -/
theorem resetPortsSettled : Obligations.ResetPortsSettled := by
  have hsettled : Settled State.reset := by decide
  exact ⟨hsettled, fun e he => absurd he List.not_mem_nil⟩

/-- Settles O13: the fields of the reset state, and one evaluation of the encoder. -/
theorem resetHoldsNoHistory : Obligations.ResetHoldsNoHistory := by
  have hresp : State.reset.resp = BitVec.ofNat 16 (linear2alaw 0) := by decide
  exact ⟨State.reset_pending, State.reset_evaluations, State.reset_cmd, hresp⟩

/-- The next entry of an obliging host's list stands for a word with an assigned op, and the host keeps obliging after it. -/
theorem exists_word_of_obeys {es : List Evaluation} {p : Presented} {rest : List Presented}
    (h : obeys es.length (p :: rest) = true) :
    ∃ w, Presented.word? es p = some w ∧ (opField w).toNat < 6 ∧ obeys (es.length + 1) rest = true := by
  cases p with
  | word w =>
    simp only [obeys, legalOp, Bool.and_eq_true, decide_eq_true_eq] at h
    exact ⟨w, Presented.word?_word es w, h⟩
  | copied op back bits =>
    simp only [obeys, legalOp, Bool.and_eq_true, decide_eq_true_eq, and_assoc] at h
    obtain ⟨hop, hback, hrest⟩ := h
    refine ⟨commandWord op (bits.take es[back].resp), ?_, by rwa [opField_commandWord], hrest⟩
    simp [hback]

theorem exists_g711Core_of_op_lt_six {w : Cmd} (h : (opField w).toNat < 6) : ∃ r, g711Core w = some r := by
  obtain ⟨i, hi⟩ := exists_decode_ok_of_op_lt_six h
  exact ⟨responseOf i, g711Core_of_decode_ok hi⟩

/-- Settles O14: with an empty list the step idles; otherwise the head's word has an assigned op, so a response. -/
theorem obligingHostIsNeverStopped : Obligations.ObligingHostIsNeverStopped := by
  intro s hs
  cases hp : s.pending with
  | nil => exact ⟨s, by simp [step, fetch_nil hp, idle], hs⟩
  | cons p rest =>
    rw [HostObeys, hp] at hs
    obtain ⟨w, hw, hop, hrest⟩ := exists_word_of_obeys hs
    obtain ⟨r, hr⟩ := exists_g711Core_of_op_lt_six hop
    exact ⟨_, step_of_g711Core hp hw hr, hrest⟩

/-- Settles O6: the decoder accepts exactly the op values below 6, and a step that decodes answers a next state. -/
theorem reservedOpsAreRefused : Obligations.ReservedOpsAreRefused := by
  intro s p rest w hp hw
  change ((∃ r, step s = .refused r) ↔ opField w = 0b110 ∨ opField w = 0b111) ∧
    (opField w = 0b110 ∨ opField w = 0b111 → step s = .refused (.rejected (.reservedOp (opField w)))) ∧
    ∀ f, step s ≠ .fault f
  rw [op_reserved_iff_six_le]
  have hreserved (hop : 6 ≤ (opField w).toNat) : step s = .refused (.rejected (.reservedOp (opField w))) :=
    step_of_decode_error hp hw (decode_of_six_le_op hop)
  refine ⟨⟨fun ⟨r, hr⟩ => ?_, fun hop => ⟨_, hreserved hop⟩⟩, hreserved, fun f => nomatch f⟩
  by_contra hop
  obtain ⟨r', hr'⟩ := exists_g711Core_of_op_lt_six (Nat.not_le.mp hop)
  simp [step_of_g711Core hp hw hr'] at hr

/-- Settles O7: the state exec runs on is the presented one, and a next state is recorded. -/
theorem stepRunsTheDecodedInstruction : Obligations.StepRunsTheDecodedInstruction := by
  intro s t p rest w i hp hw hd hexec
  have hexec' : exec i (s.present w rest) = .next t := hexec
  rw [step_of_decode_ok hp hw hd, hexec', recorded_next, State.record]

/-- Settles O8: nothing is fetched from an empty list, and the idle step keeps the state. -/
theorem stepWithEmptyListKeepsThePorts : Obligations.StepWithEmptyListKeepsThePorts := by
  intro s hp
  simp [step, fetch_nil hp, idle]

/-- Settles O9: the step answers the wrapper's function, whose values `wrapperComputesTheSelectedOperation` gives. -/
theorem stepAnswersTheWrapperFunction : Obligations.StepAnswersTheWrapperFunction := by
  intro s p rest w hp hw op operand answers
  have hanswers {r : Resp} (hr : g711Core w = some r) : answers r := step_of_g711Core hp hw hr
  obtain ⟨hl2a, ha2l, hl2u, hu2l, hloca, hlocu, hreserved⟩ := wrapperComputesTheSelectedOperation w
  refine ⟨fun h => hanswers (hl2a h).1, fun h => hanswers (ha2l h).1, fun h => hanswers (hl2u h).1,
    fun h => hanswers (hu2l h).1, fun h => hanswers (hloca h).1, fun h => hanswers (hlocu h).1, fun h t ht => ?_⟩
  have hop : 6 ≤ (opField w).toNat := h.elim Eq.ge fun h7 => (by decide : 6 ≤ 7).trans h7.ge
  simp [step_of_decode_error hp hw (decode_of_six_le_op hop)] at ht

/-- Settles O15, by induction on the list of evaluations: the first step records the first of them, whatever the state. -/
theorem runRecordsEachWordsOwnEvaluation : Obligations.RunRecordsEachWordsOwnEvaluation := by
  intro s es rest hes
  induction es generalizing s with
  | nil => exact ⟨_, run_zero _, rfl, rfl⟩
  | cons e es ih =>
    obtain ⟨he, hes⟩ := List.forall_mem_cons.mp hes
    obtain ⟨t, ht, hpending, hevaluations⟩ := ih ⟨e.cmd, e.resp, [], e :: s.evaluations⟩ hes
    have hstep : step { s with pending := (e :: es).map (fun e => .word e.cmd) ++ rest } =
        .next ⟨e.cmd, e.resp, es.map (fun e => .word e.cmd) ++ rest, e :: s.evaluations⟩ :=
      step_of_g711Core rfl (Presented.word?_word _ _) he
    refine ⟨t, (run_succ_next hstep).trans ht, hpending, ?_⟩
    rw [hevaluations, List.reverse_cons, List.append_assoc, List.singleton_append]

end Sys2Proof.Proofs
end

section
/-! SUPPORT. Lines of a host program as words: a line in its domain is the word of its instruction, and a round trip is two
evaluations, the second of the first response's bits. The statements about R55 and R56 follow from these. -/
namespace Sys2Proof.Proofs
open Sys2Proof Sys2Proof.Machine Sys2Proof.Safety Sys2Proof.Spec

/-- A sample loses nothing on the 16-bit port (R40). -/
theorem toInt_ofInt_of_isSample {x : Int} (hx : IsSample x) : (BitVec.ofInt 16 x).toInt = x :=
  BitVec.toInt_ofInt_eq_self (by decide) hx.1 (Int.lt_add_one_of_le hx.2)

theorem isSample_toInt (w : Sample) : IsSample w.toInt :=
  ⟨w.le_toInt, Int.le_of_lt_add_one w.toInt_lt⟩

theorem assemble_of_wf {c : CommandLine} (h : c.wf = true) :
    assemble c = some (commandWord c.mnemonic.op (BitVec.ofInt 16 c.operand)) := if_pos h

theorem assemble_of_not_wf {c : CommandLine} (h : c.wf = false) : assemble c = none := by
  simp [assemble, h]

theorem map_decode_assemble {c : CommandLine} {i : Instr} (hwf : c.wf = true)
    (hword : commandWord c.mnemonic.op (BitVec.ofInt 16 c.operand) = encode i) :
    (assemble c).map decode = some (.ok i) := by
  rw [assemble_of_wf hwf, hword, Option.map_some, decode_encode]

/-- A code as an operand has its ignored bits zero (R55). -/
theorem ofInt_toNat_eq_joinBytes (c : Code) : BitVec.ofInt 16 c.toNat = joinBytes 0 c := by
  refine BitVec.eq_of_toNat_eq ?_
  have hjoin : (joinBytes 0 c).toNat = 0 <<< 8 ||| c.toNat := BitVec.toNat_append 0 c
  have hc : c.toNat < 2 ^ 16 := c.isLt.trans (by decide)
  rw [hjoin, Nat.zero_shiftLeft, Nat.zero_or, BitVec.ofInt_natCast, BitVec.toNat_ofNat, Nat.mod_eq_of_lt hc]

theorem codeInRange_toNat (c : Code) : codeInRange c.toNat = true := by
  have hc := c.isLt
  simp only [codeInRange, decide_eq_true_eq]
  omega

theorem valueInRange_toNat (v : LocValue) : valueInRange v.toNat = true := by
  have hv := v.isLt
  simp only [valueInRange, decide_eq_true_eq]
  omega

/-- Settles O49: within the domains each line's word is its instruction's, which decoding gives back; outside them the line
is not well formed. -/
theorem commandLinesAssembleToTheirInstruction : Obligations.CommandLinesAssembleToTheirInstruction := by
  refine ⟨fun x hx => ?sample, fun c => ?code, fun v => ?value, fun x => ⟨fun hx => ?notSample, fun hx => ?notCode,
    fun hx => ?notValue⟩⟩
  case sample =>
    have hwf : sampleInRange x = true := decide_eq_true hx
    exact ⟨BitVec.ofInt 16 x, toInt_ofInt_of_isSample hx, map_decode_assemble hwf rfl, map_decode_assemble hwf rfl⟩
  case code =>
    have hwf := codeInRange_toNat c
    have hoperand := ofInt_toNat_eq_joinBytes c
    exact ⟨map_decode_assemble hwf (congrArg (commandWord 1) hoperand),
      map_decode_assemble hwf (congrArg (commandWord 3) hoperand)⟩
  case value =>
    have hwf := valueInRange_toNat v
    have hoperand : BitVec.ofInt 16 v.toNat = v := by rw [BitVec.ofInt_natCast, BitVec.ofNat_toNat, BitVec.setWidth_eq]
    exact ⟨map_decode_assemble hwf (congrArg (commandWord 4) hoperand),
      map_decode_assemble hwf (congrArg (commandWord 5) hoperand)⟩
  case notSample =>
    have hwf : sampleInRange x = false := decide_eq_false hx
    exact ⟨assemble_of_not_wf hwf, assemble_of_not_wf hwf⟩
  case notCode =>
    have hwf : codeInRange x = false := decide_eq_false (by omega)
    exact ⟨assemble_of_not_wf hwf, assemble_of_not_wf hwf⟩
  case notValue =>
    have hwf : valueInRange x = false := decide_eq_false (by omega)
    exact ⟨assemble_of_not_wf hwf, assemble_of_not_wf hwf⟩

/-- The encode and decode commands of a round trip, on the host's list one after the other. -/
theorem roundTrip_of_wf {c : CommandLine} (h : c.wf = true) (op : Op) :
    roundTrip c op =
      some [.word (commandWord c.mnemonic.op (BitVec.ofInt 16 c.operand)), .copied op 0 .lowByte] := by
  rw [roundTrip, assemble_of_wf h, Option.map_some]

/-- A response that is a byte is its own low byte. -/
theorem take_lowByte_ofNat {code : Nat} (h : code < 2 ^ 8) :
    CopiedBits.take .lowByte (BitVec.ofNat 16 code) = BitVec.ofNat 16 code := by
  refine BitVec.eq_of_toNat_eq ?_
  have h16 : code < 2 ^ 16 := h.trans (by decide)
  simp only [CopiedBits.take_lowByte, BitVec.toNat_setWidth, BitVec.extractLsb'_toNat, BitVec.toNat_ofNat,
    Nat.mod_eq_of_lt h16, Nat.shiftRight_zero, Nat.mod_eq_of_lt h]

/-- Two steps, the second on the low byte of the first response (R56). -/
theorem run_roundTrip {w : Cmd} {op : Op} {code : Nat} {result : Resp} (hcode : code < 2 ^ 8)
    (hencode : g711Core w = some (BitVec.ofNat 16 code))
    (hdecode : g711Core (commandWord op (BitVec.ofNat 16 code)) = some result) (s : State) (rest : List Presented) :
    Sys2Proof.core.run 2 { s with pending := [.word w, .copied op 0 .lowByte] ++ rest } =
      .next ⟨commandWord op (BitVec.ofNat 16 code), result, rest,
        ⟨commandWord op (BitVec.ofNat 16 code), result⟩ :: ⟨w, BitVec.ofNat 16 code⟩ :: s.evaluations⟩ := by
  have hword : Presented.word? (⟨w, BitVec.ofNat 16 code⟩ :: s.evaluations) (.copied op 0 .lowByte) =
      some (commandWord op (BitVec.ofNat 16 code)) := by
    simp only [Presented.word?_copied, List.getElem?_cons_zero, Option.map_some, take_lowByte_ofNat hcode]
  have hfirst : step { s with pending := [.word w, .copied op 0 .lowByte] ++ rest } =
      .next ⟨w, BitVec.ofNat 16 code, .copied op 0 .lowByte :: rest, ⟨w, BitVec.ofNat 16 code⟩ :: s.evaluations⟩ :=
    step_of_g711Core rfl (Presented.word?_word _ w) hencode
  exact (run_succ_next hfirst).trans ((run_succ_next (step_of_g711Core rfl hword hdecode)).trans (run_zero _))

theorem g711Core_l2a {x : Int} (hx : IsSample x) :
    g711Core (commandWord 0 (BitVec.ofInt 16 x)) = some (BitVec.ofNat 16 (linear2alaw x)) := by
  have h := g711Core_of_decode_ok (decode_encode (.l2a (BitVec.ofInt 16 x)))
  rwa [responseOf, zext16_alawEncoder, toInt_ofInt_of_isSample hx] at h

theorem g711Core_l2u {x : Int} (hx : IsSample x) :
    g711Core (commandWord 2 (BitVec.ofInt 16 x)) = some (BitVec.ofNat 16 (linear2ulaw x)) := by
  have h := g711Core_of_decode_ok (decode_encode (.l2u (BitVec.ofInt 16 x)))
  rwa [responseOf, zext16_ulawEncoder, toInt_ofInt_of_isSample hx] at h

/-- A code on the operand field is the low byte with the ignored bits zero. -/
theorem ofNat_eq_joinBytes {code : Nat} (h : code < 2 ^ 8) : BitVec.ofNat 16 code = joinBytes 0 (BitVec.ofNat 8 code) := by
  rw [← ofInt_toNat_eq_joinBytes, BitVec.toNat_ofNat, Nat.mod_eq_of_lt h, BitVec.ofInt_natCast]

theorem g711Core_a2l {code : Nat} (h : code < 2 ^ 8) :
    g711Core (commandWord 1 (BitVec.ofNat 16 code)) = some (BitVec.ofInt 16 (alaw2linear code)) := by
  have hg := g711Core_of_decode_ok (decode_encode (.a2l 0 (BitVec.ofNat 8 code)))
  rwa [responseOf, alawDecoder, bits16_def, BitVec.toNat_ofNat, Nat.mod_eq_of_lt h, encode, operandBits,
    ← ofNat_eq_joinBytes h] at hg

theorem g711Core_u2l {code : Nat} (h : code < 2 ^ 8) :
    g711Core (commandWord 3 (BitVec.ofNat 16 code)) = some (BitVec.ofInt 16 (ulaw2linear code)) := by
  have hg := g711Core_of_decode_ok (decode_encode (.u2l 0 (BitVec.ofNat 8 code)))
  rwa [responseOf, ulawDecoder, bits16_def, BitVec.toNat_ofNat, Nat.mod_eq_of_lt h, encode, operandBits,
    ← ofNat_eq_joinBytes h] at hg

/-- Settles O48: the encoder's response is a byte, so the copied low byte is the whole code. -/
theorem roundTripLinesRunAsTwoEvaluations : Obligations.RoundTripLinesRunAsTwoEvaluations := by
  intro x s rest hx
  have hwf : sampleInRange x = true := decide_eq_true hx
  have ha := linear2alaw_lt x
  have hu := linear2ulaw_lt x
  exact ⟨⟨_, roundTrip_of_wf (c := ⟨.L2A, x⟩) hwf 1, run_roundTrip ha (g711Core_l2a hx) (g711Core_a2l ha) s rest⟩,
    ⟨_, roundTrip_of_wf (c := ⟨.L2U, x⟩) hwf 3, run_roundTrip hu (g711Core_l2u hx) (g711Core_u2l hu) s rest⟩⟩

end Sys2Proof.Proofs
end

section
/-! SUPPORT. On an ascending table the index that locate returns splits the entries into those below the value and the
others (R63, R64); for the two tables the segments are the intervals between powers of two. -/
namespace Sys2Proof.Proofs
open Sys2Proof Sys2Proof.Machine Sys2Proof.Spec

/-- Settles O16: the entries of two fixed tables, compared by evaluation. -/
theorem tablesAreTheListedThresholds : Obligations.TablesAreTheListedThresholds := by
  unfold Obligations.TablesAreTheListedThresholds
  decide

/-- Every entry before the located one is below the value, on any table (R60). -/
theorem getElem_lt_of_lt_locate {value : Nat} {T : Table} {i : Fin 8} (h : i.val < locate value T) : T[i] < value := by
  obtain hlt | heq := (locate_le_eight value T).lt_or_eq
  · obtain ⟨-, hbefore⟩ := (locate_eq_index_iff value T ⟨locate value T, hlt⟩).mp rfl
    exact hbefore i h
  · exact (locate_eq_eight_iff value T).mp heq i

/-- On an ascending table no later entry is below the value (R62). -/
theorem le_getElem_of_locate_le {value : Nat} {T : Table} (hT : Ascending T) {i : Fin 8} (h : locate value T ≤ i.val) :
    value ≤ T[i] := by
  have hlt : locate value T < 8 := h.trans_lt i.isLt
  obtain ⟨hle, -⟩ := (locate_eq_index_iff value T ⟨locate value T, hlt⟩).mp rfl
  obtain hi | hi := h.lt_or_eq
  · exact hle.trans (hT ⟨locate value T, hlt⟩ i hi).le
  · have hi' : (⟨locate value T, hlt⟩ : Fin 8) = i := Fin.ext hi
    rwa [hi'] at hle

theorem getElem_lt_iff_lt_locate {value : Nat} {T : Table} (hT : Ascending T) (i : Fin 8) :
    T[i] < value ↔ i.val < locate value T :=
  ⟨fun h => Nat.lt_of_not_le fun hle => (le_getElem_of_locate_le hT hle).not_gt h, getElem_lt_of_lt_locate⟩

/-- The counting form of R63. -/
theorem locate_eq_length_filter {T : Table} (hT : Ascending T) (value : Nat) :
    locate value T = ((List.finRange 8).filter fun i => T[i] < value).length := by
  have hcount : ∀ n ≤ 8, n = ((List.finRange 8).filter fun i => i.val < n).length := by decide
  simp only [getElem_lt_iff_lt_locate hT]
  exact hcount _ (locate_le_eight value T)

theorem locate_mono {T : Table} (hT : Ascending T) {a b : Nat} (hab : a ≤ b) : locate a T ≤ locate b T := by
  by_contra! hlt
  have hb : locate b T < 8 := hlt.trans_le (locate_le_eight a T)
  have hbelow : T[(⟨locate b T, hb⟩ : Fin 8)] < a := getElem_lt_of_lt_locate hlt
  exact (le_getElem_of_locate_le hT (i := ⟨locate b T, hb⟩) le_rfl).not_gt (hbelow.trans_le hab)

/-- Settles O19: the split of an ascending table at the located index, and the scans of the two tables written out. -/
theorem locateIsMonotone : Obligations.LocateIsMonotone :=
  ⟨fun _ _ _ hT hab => locate_mono hT hab, fun value => ⟨locate_aTab value, locate_uTab value⟩⟩

/-- Segment 0, the segments 1 to 7 from a power of two to the next, and no segment (R64). -/
theorem aSegment_cases (value : Nat) :
    (value < 32 ∧ aSegment value = 0) ∨
    (∃ seg, 1 ≤ seg ∧ seg ≤ 7 ∧ aSegment value = seg ∧ 2 ^ (seg + 4) ≤ value ∧ value < 2 ^ (seg + 5)) ∨
    (4096 ≤ value ∧ aSegment value = 8) := by
  unfold aSegment
  split_ifs
  · exact .inl ⟨by omega, rfl⟩
  · exact .inr (.inl ⟨1, by omega, by omega, rfl, by omega, by omega⟩)
  · exact .inr (.inl ⟨2, by omega, by omega, rfl, by omega, by omega⟩)
  · exact .inr (.inl ⟨3, by omega, by omega, rfl, by omega, by omega⟩)
  · exact .inr (.inl ⟨4, by omega, by omega, rfl, by omega, by omega⟩)
  · exact .inr (.inl ⟨5, by omega, by omega, rfl, by omega, by omega⟩)
  · exact .inr (.inl ⟨6, by omega, by omega, rfl, by omega, by omega⟩)
  · exact .inr (.inl ⟨7, by omega, by omega, rfl, by omega, by omega⟩)
  · exact .inr (.inr ⟨by omega, rfl⟩)

/-- Each threshold of UTAB is one more than twice the A-law one. -/
theorem uSegment_eq_aSegment_half (value : Nat) : uSegment value = aSegment (value / 2) := by
  have hhalf (t : Nat) : value / 2 ≤ t ↔ value ≤ 2 * t + 1 := by omega
  simp only [uSegment, aSegment, hhalf]

theorem uSegment_cases (value : Nat) :
    (value < 64 ∧ uSegment value = 0) ∨
    (∃ seg, 1 ≤ seg ∧ seg ≤ 7 ∧ uSegment value = seg ∧ 2 ^ (seg + 5) ≤ value ∧ value < 2 ^ (seg + 6)) ∨
    (8192 ≤ value ∧ uSegment value = 8) := by
  rw [uSegment_eq_aSegment_half]
  obtain ⟨hlt, h⟩ | ⟨seg, h1, h7, h, hlow, hhigh⟩ | ⟨hle, h⟩ := aSegment_cases (value / 2)
  · exact .inl ⟨by omega, h⟩
  · refine .inr (.inl ⟨seg, h1, h7, h, ?_, ?_⟩)
    · rw [pow_succ 2 (seg + 4)]
      omega
    · rw [pow_succ 2 (seg + 5)]
      omega
  · exact .inr (.inr ⟨by omega, h⟩)

/-- The bias lifts every magnitude to 33 at least, so segment 0 too is one range between powers of two. -/
theorem exists_uSegment_of_biased {mag : Nat} (hlow : 33 ≤ mag) (hhigh : mag < 8192) :
    ∃ seg, seg ≤ 7 ∧ uSegment mag = seg ∧ 2 ^ (seg + 5) ≤ mag ∧ mag < 2 ^ (seg + 6) := by
  obtain ⟨hlt, h⟩ | ⟨seg, -, h7, h, hpow, hpow'⟩ | ⟨hle, -⟩ := uSegment_cases mag
  · exact ⟨0, by omega, h, by omega, by omega⟩
  · exact ⟨seg, h7, h, hpow, hpow'⟩
  · omega

theorem bitlen_eq_of_two_pow_le {n k : Nat} (hlow : 2 ^ k ≤ n) (hhigh : n < 2 ^ (k + 1)) : bitlen n = k + 1 := by
  have hn : n ≠ 0 := (Nat.two_pow_pos k |>.trans_le hlow).ne'
  rw [bitlen, if_neg hn, (Nat.log2_eq_iff hn).mpr ⟨hlow, hhigh⟩]

theorem aSegment_eq_bitlen (value : Nat) :
    aSegment value = if value ≤ 31 then 0 else if value ≤ 4095 then bitlen value - 5 else 8 := by
  obtain ⟨hlt, h⟩ | ⟨seg, h1, h7, h, hlow, hhigh⟩ | ⟨hle, h⟩ := aSegment_cases value
  · rw [h, if_pos (by omega)]
  · have h32 : 2 ^ 5 ≤ 2 ^ (seg + 4) := Nat.pow_le_pow_right (by decide) (by omega)
    have h4096 : 2 ^ (seg + 5) ≤ 2 ^ 12 := Nat.pow_le_pow_right (by decide) (by omega)
    rw [h, if_neg (by omega), if_pos (by omega), bitlen_eq_of_two_pow_le hlow hhigh]
    rfl
  · rw [h, if_neg (by omega), if_neg (by omega)]

theorem uSegment_eq_bitlen (value : Nat) :
    uSegment value = if value ≤ 63 then 0 else if value ≤ 8191 then bitlen value - 6 else 8 := by
  obtain ⟨hlt, h⟩ | ⟨seg, h1, h7, h, hlow, hhigh⟩ | ⟨hle, h⟩ := uSegment_cases value
  · rw [h, if_pos (by omega)]
  · have h64 : 2 ^ 6 ≤ 2 ^ (seg + 5) := Nat.pow_le_pow_right (by decide) (by omega)
    have h8192 : 2 ^ (seg + 6) ≤ 2 ^ 13 := Nat.pow_le_pow_right (by decide) (by omega)
    rw [h, if_neg (by omega), if_pos (by omega), bitlen_eq_of_two_pow_le hlow hhigh]
    rfl
  · rw [h, if_neg (by omega), if_neg (by omega)]

/-- Settles O18: the entries below the value are those before the located one, and the segments of the two tables lie
between powers of two. -/
theorem locateCountsEntriesAndBits : Obligations.LocateCountsEntriesAndBits :=
  ⟨fun value _ hT => locate_eq_length_filter hT value,
    fun value => ⟨(locate_aTab value).trans (aSegment_eq_bitlen value),
      (locate_uTab value).trans (uSegment_eq_bitlen value)⟩⟩

theorem toNat_segmentLocator (T : Table) (v : LocValue) : (segmentLocator T v).toNat = locate v.toNat T :=
  (BitVec.toNat_ofNat _ _).trans (Nat.mod_eq_of_lt ((locate_le_eight _ T).trans_lt (by decide)))

/-- Settles O20: an index is at most 8, so four bits hold it. -/
theorem segmentPortHoldsTheIndex : Obligations.SegmentPortHoldsTheIndex := by
  intro T v
  have hport := toNat_segmentLocator T v
  refine ⟨hport, ?_⟩
  rw [BitVec.le_def, hport]
  exact locate_le_eight _ T

/-- Settles O29: the scans of the two tables written out. -/
theorem locateCommandsAnswerTheRangeMap : Obligations.LocateCommandsAnswerTheRangeMap := by
  intro v s
  rw [exec_loca_eq_locate, exec_locu_eq_locate, locate_aTab, locate_uTab]
  exact ⟨rfl, rfl⟩

/-- Settles O22: the sum below the shifted segment, its fields by division and remainder. -/
theorem packedFieldsAreTheirSum : Obligations.PackedFieldsAreTheirSum := by
  intro seg mant hmant
  have hpack : packFields seg mant = 16 * seg + mant := packFields_eq_add (Nat.lt_succ_of_le hmant)
  rw [hpack, mantField_eq_mod, segField_eq_div_mod]
  refine ⟨rfl, by omega, fun hseg => by omega, fun hseg => ?_⟩
  rw [Bool.eq_false_iff, ne_eq, signField_eq_true_iff (by omega)]
  omega

/-- A magnitude whose leading 1 is bit k + 4: the four bits below it, and the k bits under those (R45). -/
theorem eq_mantissa_mul_add_mod {mag k : Nat} (hlow : 2 ^ (k + 4) ≤ mag) (hhigh : mag < 2 ^ (k + 5)) :
    mag = (16 + mag / 2 ^ k % 16) * 2 ^ k + mag % 2 ^ k := by
  have hlead : 16 ≤ mag / 2 ^ k := (Nat.le_div_iff_mul_le (Nat.two_pow_pos k)).mpr (by rwa [pow_add, mul_comm] at hlow)
  have hfive : mag / 2 ^ k < 32 := (Nat.div_lt_iff_lt_mul (Nat.two_pow_pos k)).mpr (by rwa [pow_add, mul_comm] at hhigh)
  have hmant : 16 + mag / 2 ^ k % 16 = mag / 2 ^ k := by omega
  rw [hmant, Nat.div_add_mod']

/-- Settles O31: in A-law segments 0 and 1 the range of the magnitude alone; elsewhere the leading 1 of its segment. -/
theorem mantissaSitsBelowTheLeadingOne : Obligations.MantissaSitsBelowTheLeadingOne := by
  intro mag
  simp only [locate_aTab, locate_uTab, alawMant_eq_div_mod, ulawMant_eq_div_mod]
  refine ⟨fun seg hseg hle => ?low, fun seg hseg h2 h7 => ?alaw, fun seg hseg h33 h7 => ?ulaw⟩
  case low =>
    rw [if_pos (by omega)]
    obtain ⟨hlt, h⟩ | ⟨s, h1, -, h, hlow, hhigh⟩ | ⟨-, h⟩ := aSegment_cases mag
    · omega
    · obtain rfl : s = 1 := by omega
      omega
    · omega
  case alaw =>
    rw [if_neg (by omega)]
    obtain ⟨-, h⟩ | ⟨s, -, -, h, hlow, hhigh⟩ | ⟨-, h⟩ := aSegment_cases mag
    · omega
    · obtain rfl : s = seg := h.symm.trans hseg
      exact eq_mantissa_mul_add_mod hlow hhigh
    · omega
  case ulaw =>
    obtain ⟨hlt, h⟩ | ⟨s, -, -, h, hlow, hhigh⟩ | ⟨-, h⟩ := uSegment_cases mag
    · obtain rfl : 0 = seg := h.symm.trans hseg
      exact eq_mantissa_mul_add_mod (k := 1) (by omega) (by omega)
    · obtain rfl : s = seg := h.symm.trans hseg
      exact eq_mantissa_mul_add_mod hlow hhigh
    · omega

end Sys2Proof.Proofs
end

section
/-! SUPPORT. What the two laws share. A code on the wire is a level, the pre-mask byte, inverted by the law's pattern with
bit 7 set for a non-negative sample (R41, R43, R46); the levels are the intervals between the values of a strictly increasing
sequence, and a level is reconstructed as the middle of its interval with the sample's sign. -/
namespace Sys2Proof.Proofs
open Sys2Proof Sys2Proof.Machine Sys2Proof.Spec

/-- The code of a level under a law's inversion pattern (0x55 or 0x7F), with the sign bit of the sample. -/
def wireCode (inversion : Nat) (nonneg : Bool) (level : Nat) : Nat :=
  level ^^^ (inversion + if nonneg then 128 else 0)

/-- A magnitude with the sign of the sample. -/
def signed (nonneg : Bool) (t : Int) : Int := if nonneg then t else -t

@[simp] theorem signed_true (t : Int) : signed true t = t := rfl
@[simp] theorem signed_false (t : Int) : signed false t = -t := rfl

theorem signed_not (nonneg : Bool) (t : Int) : signed (!nonneg) t = -signed nonneg t := by
  cases nonneg with
  | true => rfl
  | false => exact (neg_neg t).symm

/-- Larger samples have larger signed magnitudes where the magnitudes grow away from zero on either side. -/
theorem signed_le_signed {a b s t : Int} (hs : 0 ≤ s) (ht : 0 ≤ t) (hab : a ≤ b) (hnonneg : 0 ≤ a → s ≤ t)
    (hneg : b < 0 → t ≤ s) : signed (decide (0 ≤ a)) s ≤ signed (decide (0 ≤ b)) t := by
  simp only [signed, decide_eq_true_eq]
  split_ifs <;> omega

theorem add_128_eq_xor : ∀ x < 128, x + 128 = x ^^^ 128 := by decide

theorem wireCode_true {inversion : Nat} (hinv : inversion < 128) (level : Nat) :
    wireCode inversion true level = level ^^^ inversion ^^^ 128 := by
  rw [wireCode, if_pos rfl, add_128_eq_xor inversion hinv, Nat.xor_assoc]

theorem wireCode_false (inversion level : Nat) : wireCode inversion false level = level ^^^ inversion := rfl

/-- Bit 7 of the code only tells the sign. -/
theorem wireCode_xor_128 {inversion : Nat} (hinv : inversion < 128) (nonneg : Bool) (level : Nat) :
    wireCode inversion nonneg level ^^^ 128 = wireCode inversion (!nonneg) level := by
  cases nonneg with
  | true => rw [wireCode_true hinv, Nat.xor_assoc, Nat.xor_self, Nat.xor_zero, Bool.not_true, wireCode_false]
  | false => rw [Bool.not_false, wireCode_true hinv, wireCode_false]

/-- Undoing the inversion leaves the level and the sign bit. -/
theorem wireCode_xor_inversion {inversion level : Nat} (hinv : inversion < 128) (hlevel : level < 128) (nonneg : Bool) :
    wireCode inversion nonneg level ^^^ inversion = level + if nonneg then 128 else 0 := by
  cases nonneg with
  | true =>
    rw [wireCode_true hinv, Nat.xor_right_comm, Nat.xor_xor_cancel_right, if_pos rfl, add_128_eq_xor level hlevel]
  | false => exact Nat.xor_xor_cancel_right level inversion

/-- The fields of a level with a sign bit on top (R42, R47). -/
theorem fields_of_signed_level {level : Nat} (hlevel : level < 128) (top : Bool) :
    (level + if top then 128 else 0) / 16 % 8 = level / 16 ∧ (level + if top then 128 else 0) % 16 = level % 16 ∧
    signField (level + if top then 128 else 0) = top := by
  cases top with
  | true =>
    rw [if_pos rfl]
    exact ⟨by omega, by omega, (signField_eq_true_iff (by omega)).mpr (by omega)⟩
  | false =>
    rw [if_neg Bool.false_ne_true]
    refine ⟨by omega, by omega, Bool.eq_false_iff.mpr fun h => ?_⟩
    rw [signField_eq_true_iff (by omega)] at h
    omega

theorem wireCode_lt {inversion level : Nat} (hinv : inversion < 128) (hlevel : level < 128) (nonneg : Bool) :
    wireCode inversion nonneg level < 2 ^ 8 :=
  Nat.xor_lt_two_pow (hlevel.trans (by decide)) (by split <;> omega)

theorem wireCode_inj {inversion level level' : Nat} {nonneg : Bool} :
    wireCode inversion nonneg level = wireCode inversion nonneg level' ↔ level = level' := Nat.xor_left_inj

/-- Every byte is the code of a sign and a level. -/
theorem exists_eq_wireCode {inversion code : Nat} (hinv : inversion < 128) (hcode : code < 2 ^ 8) :
    ∃ nonneg level, level < 128 ∧ code = wireCode inversion nonneg level := by
  have hx : code ^^^ inversion < 2 ^ 8 := Nat.xor_lt_two_pow hcode (hinv.trans (by decide))
  have hlevel : (code ^^^ inversion) % 128 < 128 := Nat.mod_lt _ (by decide)
  refine ⟨decide (128 ≤ code ^^^ inversion), (code ^^^ inversion) % 128, hlevel, ?_⟩
  apply (Nat.xor_left_inj (z := inversion)).mp
  rw [wireCode_xor_inversion hinv hlevel]
  simp only [decide_eq_true_eq]
  split_ifs <;> omega

/-- The four fields of a response that is a wire code (R41, R43). -/
theorem wireCode_fields {inversion level : Nat} (hinv : inversion < 128) (hlevel : level < 128) (nonneg : Bool) :
    (BitVec.ofNat 16 (wireCode inversion nonneg level)).extractLsb' 8 8 = 0 ∧
    (BitVec.ofNat 16 (wireCode inversion nonneg level)).getLsbD 7 = nonneg ∧
    ((BitVec.ofNat 16 (wireCode inversion nonneg level)).extractLsb' 4 3).toNat = segField level ^^^ (inversion / 16) ∧
    ((BitVec.ofNat 16 (wireCode inversion nonneg level)).extractLsb' 0 4).toNat =
      mantField level ^^^ (inversion % 16) := by
  have hcode := wireCode_lt hinv hlevel nonneg
  have hcode16 : wireCode inversion nonneg level < 2 ^ 16 := hcode.trans (by decide)
  obtain ⟨hmaskSeg, hmaskMant, hmaskSign⟩ := fields_of_signed_level hinv nonneg
  refine ⟨BitVec.eq_of_toNat_eq ?_, ?_, ?_, ?_⟩
  · rw [BitVec.extractLsb'_toNat, BitVec.toNat_ofNat, Nat.mod_eq_of_lt hcode16, Nat.shiftRight_eq_div_pow,
      Nat.div_eq_of_lt hcode]
    rfl
  · rw [BitVec.getLsbD, BitVec.toNat_ofNat, Nat.mod_eq_of_lt hcode16, wireCode, Nat.testBit_xor,
      Nat.testBit_lt_two_pow hlevel, Bool.false_xor, ← signField_eq_testBit, hmaskSign]
  · calc ((BitVec.ofNat 16 (wireCode inversion nonneg level)).extractLsb' 4 3).toNat
      _ = wireCode inversion nonneg level / 2 ^ 4 % 2 ^ 3 := by
        rw [BitVec.extractLsb'_toNat, BitVec.toNat_ofNat, Nat.mod_eq_of_lt hcode16, Nat.shiftRight_eq_div_pow]
      _ = segField level ^^^ (inversion / 16) := by
        rw [wireCode, Nat.xor_div_two_pow, Nat.xor_mod_two_pow, segField_eq_div_mod]
        exact congrArg _ hmaskSeg
  · calc ((BitVec.ofNat 16 (wireCode inversion nonneg level)).extractLsb' 0 4).toNat
      _ = wireCode inversion nonneg level % 2 ^ 4 := by
        rw [BitVec.extractLsb'_toNat, BitVec.toNat_ofNat, Nat.mod_eq_of_lt hcode16, Nat.shiftRight_zero]
      _ = mantField level ^^^ (inversion % 16) := by
        rw [wireCode, Nat.xor_mod_two_pow, mantField_eq_mod]
        exact congrArg _ hmaskMant

/-- The level whose interval holds k is the only one. -/
theorem level_eq_iff {low : Nat → Int} (hmono : StrictMono low) {level : Nat} {k : Int} (hlow : low level ≤ k)
    (hhigh : k < low (level + 1)) (c : Nat) : level = c ↔ low c ≤ k ∧ k < low (c + 1) := by
  refine ⟨?_, fun ⟨hclow, hchigh⟩ => ?_⟩
  · rintro rfl
    exact ⟨hlow, hhigh⟩
  · have h1 : level < c + 1 := hmono.lt_iff_lt.mp (hlow.trans_lt hchigh)
    have h2 : c < level + 1 := hmono.lt_iff_lt.mp (hclow.trans_lt hhigh)
    omega

theorem level_le_level {low : Nat → Int} (hmono : StrictMono low) {level level' : Nat} {k k' : Int}
    (hlow : low level ≤ k) (hle : k ≤ k') (hhigh : k' < low (level' + 1)) : level ≤ level' :=
  Nat.le_of_lt_succ (hmono.lt_iff_lt.mp ((hlow.trans hle).trans_lt hhigh))

/-- Midpoints of successive intervals increase. -/
theorem midpoint_mono {low mid : Nat → Int} (hmono : StrictMono low)
    (hmid : ∀ c, 2 * mid c = low c + low (c + 1)) : Monotone mid := by
  intro c d hcd
  have h1 : low c ≤ low d := hmono.monotone hcd
  have h2 : low (c + 1) ≤ low (d + 1) := hmono.monotone (Nat.succ_le_succ hcd)
  have hc := hmid c
  have hd := hmid d
  omega

/-- A step of the packed byte is a step of the mantissa, or from the last mantissa to the next segment. -/
theorem packed_succ (c : Nat) :
    ((c + 1) / 16 = c / 16 ∧ (c + 1) % 16 = c % 16 + 1) ∨
    (c % 16 = 15 ∧ (c + 1) / 16 = c / 16 + 1 ∧ (c + 1) % 16 = 0) := by omega

/-- Two response words made of codes are equal only for equal codes. -/
theorem ofNat_resp_inj {a b : Nat} (ha : a < 2 ^ 8) (hb : b < 2 ^ 8) :
    BitVec.ofNat 16 a = BitVec.ofNat 16 b ↔ a = b := by
  rw [← BitVec.toNat_inj, BitVec.toNat_ofNat, BitVec.toNat_ofNat, Nat.mod_eq_of_lt (ha.trans (by decide)),
    Nat.mod_eq_of_lt (hb.trans (by decide))]

theorem next_resp_ofNat_inj {s : State} {a b : Nat} (ha : a < 2 ^ 8) (hb : b < 2 ^ 8) :
    (.next { s with resp := BitVec.ofNat 16 a } : Host.Outcome State Fault Refusal) =
      .next { s with resp := BitVec.ofNat 16 b } ↔ a = b := by
  rw [← ofNat_resp_inj ha hb]
  exact ⟨fun h => congrArg State.resp (Host.Outcome.next.inj h), fun h => by rw [h]⟩

theorem toInt_bits16 {x : Int} (hx : IsSample x) : (bits16 x).toInt = x := toInt_ofInt_of_isSample hx

theorem exec_l2a_of_toInt {w : Sample} {x : Int} (h : w.toInt = x) (s : State) :
    exec (.l2a w) s = .next { s with resp := BitVec.ofNat 16 (linear2alaw x) } := by
  rw [exec_l2a_eq_linear2alaw, h]

theorem exec_l2u_of_toInt {w : Sample} {x : Int} (h : w.toInt = x) (s : State) :
    exec (.l2u w) s = .next { s with resp := BitVec.ofNat 16 (linear2ulaw x) } := by
  rw [exec_l2u_eq_linear2ulaw, h]

end Sys2Proof.Proofs
end

section
/-! SUPPORT. The A-law levels: the encoder finds the level whose interval holds the folded sample (R72, R73) and the decoder
answers the middle of that interval (R81). The statements about the A-law codec follow from these. -/
namespace Sys2Proof.Proofs
open Sys2Proof Sys2Proof.Machine Sys2Proof.Spec

/-- The lowest folded sample of an A-law level; that of the next level is one past its highest (R73). -/
def alawFloor (c : Nat) : Int := alawLow (c / 16) (c % 16)

/-- The reconstruction magnitude of an A-law level (R81). -/
def alawMidpoint (c : Nat) : Int := alawMid (c / 16) (c % 16)

/-- A sample folded about -1/2 (R72): L2A sees the sample's sign and this magnitude. -/
def alawFold (pcm : Int) : Int := if 0 ≤ pcm then pcm else -pcm - 1

/-- The pre-mask byte of a sample (R70 steps 1 to 5). -/
def alawLevel (pcm : Int) : Nat := alawPreMask (alawMagOf pcm)

theorem alawLevel_lt (pcm : Int) : alawLevel pcm < 128 := alawPreMask_lt _

theorem alawFloor_packed {seg m : Nat} (hm : m < 16) : alawFloor (16 * seg + m) = alawLow seg m := by
  have hseg : (16 * seg + m) / 16 = seg := by omega
  have hmant : (16 * seg + m) % 16 = m := by omega
  rw [alawFloor, hseg, hmant]

theorem alawStep_pos (seg : Nat) : 0 < alawStep seg := by
  unfold alawStep
  split
  · decide
  · positivity

theorem alawLow_next_segment (seg : Nat) : alawLow (seg + 1) 0 = alawLow seg 15 + alawStep seg := by
  unfold alawLow alawStep
  rw [if_neg (Nat.succ_ne_zero seg)]
  split_ifs with h
  · rw [h]
    norm_num
  · push_cast
    ring

theorem alawLow_next_mantissa (seg m : Nat) : alawLow seg (m + 1) = alawLow seg m + alawStep seg := by
  unfold alawLow alawStep
  split_ifs
  · push_cast
    ring
  · push_cast
    ring

theorem alawFloor_succ (c : Nat) : alawFloor (c + 1) = alawFloor c + alawStep (c / 16) := by
  obtain ⟨hseg, hmant⟩ | ⟨hlast, hseg, hmant⟩ := packed_succ c
  · rw [alawFloor, hseg, hmant, alawLow_next_mantissa, alawFloor]
  · rw [alawFloor, hseg, hmant, alawLow_next_segment, alawFloor, hlast]

theorem alawFloor_packed_succ {seg m : Nat} (hm : m < 16) :
    alawFloor (16 * seg + m + 1) = alawLow seg m + alawStep seg := by
  have hseg : (16 * seg + m) / 16 = seg := by omega
  rw [alawFloor_succ, alawFloor_packed hm, hseg]

theorem alawFloor_strictMono : StrictMono alawFloor :=
  strictMono_nat_of_lt_succ fun c => by
    rw [alawFloor_succ]
    exact lt_add_of_pos_right _ (alawStep_pos _)

theorem alawFloor_nonneg (c : Nat) : 0 ≤ alawFloor c := alawFloor_strictMono.monotone (Nat.zero_le c)

theorem two_mul_alawMid (seg m : Nat) : 2 * alawMid seg m = 2 * alawLow seg m + alawStep seg := by
  unfold alawMid alawLow alawStep
  split
  · ring
  · ring

theorem two_mul_alawMidpoint (c : Nat) : 2 * alawMidpoint c = alawFloor c + alawFloor (c + 1) := by
  rw [alawMidpoint, two_mul_alawMid, alawFloor_succ, alawFloor]
  ring

theorem alawMidpoint_mono : Monotone alawMidpoint := midpoint_mono alawFloor_strictMono two_mul_alawMidpoint

theorem alawMidpoint_ge (c : Nat) : 8 ≤ alawMidpoint c := alawMidpoint_mono (Nat.zero_le c)

theorem alawMidpoint_le {c : Nat} (hc : c < 128) : alawMidpoint c ≤ 32256 := by
  have hmax : alawMidpoint 127 = 32256 := by decide
  exact (alawMidpoint_mono (Nat.le_of_lt_succ hc)).trans_eq hmax

/-- The magnitude is the folded sample less its three lowest bits (R70 steps 1 and 2). -/
theorem alawMagOf_bounds (pcm : Int) :
    8 * (alawMagOf pcm : Int) ≤ alawFold pcm ∧ alawFold pcm < 8 * (alawMagOf pcm : Int) + 8 := by
  have hshift : alawShifted pcm = pcm / 8 := rfl
  simp only [alawMagOf, alawMag, hshift, alawFold]
  split_ifs <;> omega

/-- The two lowest segments share the mantissa's place, so one equation serves the segments 1 to 7 (R45). -/
theorem alawPreMask_of_aSegment {mag seg : Nat} (hseg : aSegment mag = seg) (h1 : 1 ≤ seg) (h7 : seg ≤ 7) :
    alawPreMask mag = 16 * seg + mag / 2 ^ seg % 16 := by
  rw [alawPreMask_eq, hseg, if_neg (by omega)]
  split
  · obtain rfl : seg = 1 := by omega
    rfl
  · rfl

/-- The level's interval, in units of the magnitude. -/
theorem alawPreMask_bounds {mag : Nat} (hmag : mag < 4096) :
    alawFloor (alawPreMask mag) ≤ 8 * mag ∧ 8 * (mag : Int) + 8 ≤ alawFloor (alawPreMask mag + 1) := by
  obtain ⟨hlt, h⟩ | ⟨seg, h1, h7, h, hlow, hhigh⟩ | ⟨hle, -⟩ := aSegment_cases mag
  · have hpre : alawPreMask mag = 16 * 0 + mag / 2 % 16 := by simp [alawPreMask_eq, h]
    rw [hpre, alawFloor_packed (Nat.mod_lt _ (by decide)), alawFloor_packed_succ (Nat.mod_lt _ (by decide))]
    simp only [alawLow, alawStep, if_pos]
    omega
  · rw [alawPreMask_of_aSegment h h1 h7, alawFloor_packed (Nat.mod_lt _ (by decide)),
      alawFloor_packed_succ (Nat.mod_lt _ (by decide))]
    have hseg : seg ≠ 0 := by omega
    have hrest : mag % 2 ^ seg < 2 ^ seg := Nat.mod_lt _ (Nat.two_pow_pos seg)
    have hmag' := eq_mantissa_mul_add_mod hlow hhigh
    have hscale : alawLow seg (mag / 2 ^ seg % 16) = 8 * (((16 + mag / 2 ^ seg % 16) * 2 ^ seg : Nat) : Int) := by
      rw [alawLow, if_neg hseg]
      push_cast
      ring
    have hstep : alawStep seg = 8 * ((2 ^ seg : Nat) : Int) := by
      rw [alawStep, if_neg hseg]
      push_cast
      ring
    omega
  · omega

theorem alawMagOf_lt {pcm : Int} (hpcm : IsSample pcm) : alawMagOf pcm < 4096 := by
  obtain ⟨hlow, hhigh⟩ := hpcm
  have hbounds := alawMagOf_bounds pcm
  unfold alawFold at hbounds
  split at hbounds <;> omega

theorem alawLevel_bounds {pcm : Int} (hpcm : IsSample pcm) :
    alawFloor (alawLevel pcm) ≤ alawFold pcm ∧ alawFold pcm < alawFloor (alawLevel pcm + 1) := by
  have hfold := alawMagOf_bounds pcm
  have hlevel := alawPreMask_bounds (alawMagOf_lt hpcm)
  rw [alawLevel]
  omega

theorem alawLevel_eq_iff {pcm : Int} (hpcm : IsSample pcm) (c : Nat) :
    alawLevel pcm = c ↔ alawFloor c ≤ alawFold pcm ∧ alawFold pcm < alawFloor (c + 1) :=
  level_eq_iff alawFloor_strictMono (alawLevel_bounds hpcm).1 (alawLevel_bounds hpcm).2 c

/-- A larger folded sample has no smaller level. -/
theorem alawLevel_le {a b : Int} (ha : IsSample a) (hb : IsSample b) (hab : alawFold a ≤ alawFold b) :
    alawLevel a ≤ alawLevel b :=
  level_le_level alawFloor_strictMono (alawLevel_bounds ha).1 hab (alawLevel_bounds hb).2

theorem alawMask_alawShifted (pcm : Int) :
    alawMask (alawShifted pcm) = 0x55 + if decide (0 ≤ pcm) = true then 128 else 0 := by
  have hshift : alawShifted pcm = pcm / 8 := rfl
  simp only [alawMask, hshift, aMaskPos, aMaskNeg, decide_eq_true_eq]
  split_ifs <;> omega

theorem linear2alaw_eq_wireCode (pcm : Int) :
    linear2alaw pcm = wireCode 0x55 (decide (0 ≤ pcm)) (alawLevel pcm) := by
  rw [wireCode, ← alawMask_alawShifted]
  rfl

theorem alawReconstruct_eq_mid (x : Nat) : (alawReconstruct x : Int) = alawMid (x / 16 % 8) (x % 16) := by
  rw [alawReconstruct_eq, alawMid]
  split_ifs with h0 h1
  · push_cast
    ring
  · rw [h1]
    push_cast
    ring
  · obtain ⟨k, hk⟩ : ∃ k, x / 16 % 8 = k + 1 := Nat.exists_eq_add_one_of_ne_zero h0
    rw [hk, Nat.add_sub_cancel]
    push_cast
    ring

/-- The unmasked byte is the level with the sign on top (R80 step 1). -/
theorem unmask_alaw_wireCode {c : Nat} (hc : c < 128) (nonneg : Bool) :
    bitXor (wireCode 0x55 nonneg c) aMaskNeg = c + if nonneg then 128 else 0 :=
  wireCode_xor_inversion (by decide) hc nonneg

theorem alawReconstruct_unmask {c : Nat} (hc : c < 128) (nonneg : Bool) :
    (alawReconstruct (bitXor (wireCode 0x55 nonneg c) aMaskNeg) : Int) = alawMidpoint c := by
  obtain ⟨hseg, hmant, -⟩ := fields_of_signed_level hc nonneg
  rw [unmask_alaw_wireCode hc, alawReconstruct_eq_mid, hseg, hmant, alawMidpoint]

/-- The decoder reads back the sign and the level (R80, R47). -/
theorem alaw2linear_wireCode {c : Nat} (hc : c < 128) (nonneg : Bool) :
    alaw2linear (wireCode 0x55 nonneg c) = signed nonneg (alawMidpoint c) := by
  obtain ⟨-, -, hsign⟩ := fields_of_signed_level hc nonneg
  rw [← unmask_alaw_wireCode hc] at hsign
  simp only [alaw2linear, hsign, alawReconstruct_unmask hc, signed]

theorem rta_eq (x : Int) : rta x = signed (decide (0 ≤ x)) (alawMidpoint (alawLevel x)) := by
  rw [rta, linear2alaw_eq_wireCode, alaw2linear_wireCode (alawLevel_lt x)]

theorem alawSegOf_eq (x : Int) : alawSegOf x = alawLevel x / 16 := by
  have hlevel := alawLevel_lt x
  rw [alawSegOf, linear2alaw_eq_wireCode, unmask_alaw_wireCode hlevel, segField_eq_div_mod]
  exact (fields_of_signed_level hlevel _).1

theorem isSample_signed_alawMidpoint {c : Nat} (hc : c < 128) (nonneg : Bool) :
    IsSample (signed nonneg (alawMidpoint c)) := by
  have hlow := alawMidpoint_ge c
  have hhigh := alawMidpoint_le hc
  cases nonneg with
  | true => exact ⟨by rw [signed_true]; omega, by rw [signed_true]; omega⟩
  | false => exact ⟨by rw [signed_false]; omega, by rw [signed_false]; omega⟩

/-- The midpoint lies in its own interval, on either side. -/
theorem linear2alaw_signed_alawMidpoint {c : Nat} (hc : c < 128) (nonneg : Bool) :
    linear2alaw (signed nonneg (alawMidpoint c)) = wireCode 0x55 nonneg c := by
  have hsample := isSample_signed_alawMidpoint hc nonneg
  have hmid := two_mul_alawMidpoint c
  have hpos := alawMidpoint_ge c
  have hstep : alawFloor c < alawFloor (c + 1) := alawFloor_strictMono (Nat.lt_succ_self c)
  have hsign : decide (0 ≤ signed nonneg (alawMidpoint c)) = nonneg := by
    cases nonneg with
    | true => exact decide_eq_true (by rw [signed_true]; omega)
    | false => exact decide_eq_false (by rw [signed_false]; omega)
  have hlevel : alawLevel (signed nonneg (alawMidpoint c)) = c := by
    rw [alawLevel_eq_iff hsample, alawFold]
    cases nonneg with
    | true =>
      rw [signed_true, if_pos (by omega)]
      omega
    | false =>
      rw [signed_false, if_neg (by omega)]
      omega
  rw [linear2alaw_eq_wireCode, hsign, hlevel]

theorem linear2alaw_alaw2linear {code : Nat} (hcode : code < 2 ^ 8) : linear2alaw (alaw2linear code) = code := by
  obtain ⟨nonneg, c, hc, rfl⟩ := exists_eq_wireCode (inversion := 0x55) (by decide) hcode
  rw [alaw2linear_wireCode hc, linear2alaw_signed_alawMidpoint hc]

theorem isSample_alaw2linear {code : Nat} (hcode : code < 2 ^ 8) : IsSample (alaw2linear code) := by
  obtain ⟨nonneg, c, hc, rfl⟩ := exists_eq_wireCode (inversion := 0x55) (by decide) hcode
  rw [alaw2linear_wireCode hc]
  exact isSample_signed_alawMidpoint hc nonneg

theorem toInt_alawDecoder (code : Code) : (alawDecoder code).toInt = alaw2linear code.toNat :=
  toInt_ofInt_of_isSample (isSample_alaw2linear code.isLt)

/-- L2A answers the code that a sample was decoded from. -/
theorem exec_l2a_alawDecoder (code : Code) (s : State) :
    exec (.l2a (alawDecoder code)) s = .next { s with resp := code.setWidth 16 } := by
  rw [exec_l2a_of_toInt (toInt_alawDecoder code), linear2alaw_alaw2linear code.isLt, BitVec.ofNat_toNat]

/-- Settles O37: the midpoint of a level is encoded to the level, on either side. -/
theorem aLawEncodeAfterDecode : Obligations.ALawEncodeAfterDecode := by
  refine ⟨fun ignored code s => ⟨alawDecoder code, exec_a2l ignored code s, exec_l2a_alawDecoder code _⟩, fun x _ => ?_⟩
  rw [rta, rta, linear2alaw_alaw2linear (linear2alaw_lt x)]

/-- Settles O32: the level is the code's exactly when the folded sample lies in the level's interval. -/
theorem aLawEncoderIntervals : Obligations.ALawEncoderIntervals := by
  intro seg m pcm s hseg hm hpcm
  have hc : 16 * seg + m < 128 := by omega
  have hcode (nonneg : Bool) (hsign : decide (0 ≤ pcm) = nonneg) :
      exec (.l2a (bits16 pcm)) s = .next { s with resp := BitVec.ofNat 16 (wireCode 0x55 nonneg (16 * seg + m)) } ↔
        alawLow seg m ≤ alawFold pcm ∧ alawFold pcm < alawLow seg m + alawStep seg := by
    rw [exec_l2a_of_toInt (toInt_bits16 hpcm),
      next_resp_ofNat_inj (linear2alaw_lt pcm) (wireCode_lt (by decide) hc nonneg), linear2alaw_eq_wireCode, hsign,
      wireCode_inj, alawLevel_eq_iff hpcm, alawFloor_packed hm, alawFloor_packed_succ hm]
  refine ⟨fun hnonneg => (hcode true (decide_eq_true hnonneg)).trans ?_,
    fun hneg => (hcode false (decide_eq_false hneg.not_ge)).trans ?_⟩
  · rw [alawFold, if_pos hnonneg]
    omega
  · rw [alawFold, if_neg hneg.not_ge]
    omega

/-- Complementing a sample word mirrors it about -1/2 (R72). -/
theorem toInt_complement (w : Sample) : (~~~w).toInt = -w.toInt - 1 := by
  have hw := w.isLt
  rw [BitVec.toInt_eq_toNat_cond, BitVec.toInt_eq_toNat_cond, BitVec.toNat_not]
  split_ifs <;> omega

theorem linear2alaw_mirror (pcm : Int) : linear2alaw (-pcm - 1) = linear2alaw pcm ^^^ 128 := by
  have hshift : alawShifted (-pcm - 1) = -alawShifted pcm - 1 := by
    have h (x : Int) : alawShifted x = x / 8 := rfl
    rw [h, h]
    omega
  have hmag : alawMagOf (-pcm - 1) = alawMagOf pcm := by
    simp only [alawMagOf, hshift, alawMag]
    split_ifs <;> omega
  have hsign : decide (0 ≤ -pcm - 1) = !decide (0 ≤ pcm) := by
    rw [← decide_not]
    exact decide_eq_decide.mpr (by omega)
  rw [linear2alaw_eq_wireCode, linear2alaw_eq_wireCode, wireCode_xor_128 (by decide), hsign, alawLevel, hmag, alawLevel]

/-- Settles O33: the fold about -1/2 takes the complemented sample to the same level, and every code is that of its own
decoded sample. -/
theorem aLawEncoderMirrorsTheSign : Obligations.ALawEncoderMirrorsTheSign := by
  refine ⟨fun pcm s => ⟨_, exec_l2a_eq_linear2alaw pcm s, ?_⟩, fun c => ⟨alawDecoder c, exec_l2a_alawDecoder c⟩⟩
  rw [exec_l2a_of_toInt (toInt_complement pcm), linear2alaw_mirror, BitVec.ofNat_xor]
  rfl

/-- Settles O34: levels grow with the folded sample and midpoints with the level, on either side of zero. -/
theorem aLawRoundTripIsMonotone : Obligations.ALawRoundTripIsMonotone := by
  intro a b ha hb hab
  have hpos (x : Int) : 0 ≤ alawMidpoint (alawLevel x) := (by decide : (0 : Int) ≤ 8).trans (alawMidpoint_ge _)
  rw [rta_eq, rta_eq]
  refine signed_le_signed (hpos a) (hpos b) hab (fun hnonneg => ?_) fun hneg => ?_
  · refine alawMidpoint_mono (alawLevel_le ha hb ?_)
    rwa [alawFold, alawFold, if_pos hnonneg, if_pos (hnonneg.trans hab)]
  · refine alawMidpoint_mono (alawLevel_le hb ha ?_)
    rw [alawFold, alawFold, if_neg hneg.not_ge, if_neg (hab.trans_lt hneg).not_ge]
    omega

/-- The fields of a byte, as extracted bits (R42). -/
theorem toNat_segment_extract (x : Code) : (x.extractLsb' 4 3).toNat = x.toNat / 16 % 8 := by
  rw [BitVec.extractLsb'_toNat, Nat.shiftRight_eq_div_pow]

theorem toNat_mantissa_extract (x : Code) : (x.extractLsb' 0 4).toNat = x.toNat % 16 := by
  rw [BitVec.extractLsb'_toNat, Nat.shiftRight_zero]

theorem getLsbD_seven_eq_decide (x : Code) : x.getLsbD 7 = decide (128 ≤ x.toNat) := by
  have hx := x.isLt
  rw [BitVec.getLsbD, Nat.testBit_eq_decide_div_mod_eq]
  exact decide_eq_decide.mpr (by omega)

theorem alawDecoder_injective : Function.Injective alawDecoder := by
  intro c d h
  have hcode := (exec_l2a_alawDecoder c State.reset).symm.trans (h ▸ exec_l2a_alawDecoder d State.reset)
  have hresp : c.setWidth 16 = d.setWidth 16 := congrArg State.resp (Host.Outcome.next.inj hcode)
  have hnat := congrArg BitVec.toNat hresp
  simp only [BitVec.toNat_setWidth] at hnat
  have hc := c.isLt
  have hd := d.isLt
  exact BitVec.eq_of_toNat_eq (by omega)

/-- Settles O35: the unmasked byte's fields give the midpoint of the level, and the encoder takes each midpoint back. -/
theorem aLawDecoderAnswersTheMidpoint : Obligations.ALawDecoderAnswersTheMidpoint := by
  refine ⟨fun ignored code s => ?_, fun seg m _ => ?_, by decide, by decide, fun c d h => alawDecoder_injective h⟩
  · simp only [toNat_segment_extract, toNat_mantissa_extract, getLsbD_seven_eq_decide, decide_eq_true_eq]
    rw [exec_a2l_eq_alaw2linear, alaw2linear_toNat, alawReconstruct_eq_mid]
  · have hmid := two_mul_alawMid seg m
    omega

theorem alaw2linear_xor_128 {code : Nat} (hcode : code < 2 ^ 8) : alaw2linear (code ^^^ 128) = -alaw2linear code := by
  obtain ⟨nonneg, c, hc, rfl⟩ := exists_eq_wireCode (inversion := 0x55) (by decide) hcode
  rw [wireCode_xor_128 (by decide), alaw2linear_wireCode hc, alaw2linear_wireCode hc, signed_not]

/-- Settles O36: bit 7 of the code is its sign, whatever the level. -/
theorem aLawDecoderSignBitNegates : Obligations.ALawDecoderSignBitNegates := by
  intro ignored code s
  have hflip : (code ^^^ 0x80).toNat = code.toNat ^^^ 128 := BitVec.toNat_xor code 0x80
  refine ⟨_, exec_a2l_eq_alaw2linear ignored code s, ?_⟩
  rw [exec_a2l_eq_alaw2linear, hflip, alaw2linear_xor_128 code.isLt, BitVec.ofInt_neg]

end Sys2Proof.Proofs
end

section
/-! SUPPORT. The A-law round-trip error, from where a sample lies in the interval of its level. -/
namespace Sys2Proof.Proofs
open Sys2Proof Sys2Proof.Machine Sys2Proof.Spec

/-- The round trip answers the midpoint of the interval that holds the sample, on either side. -/
theorem rta_cases {x : Int} (hx : IsSample x) :
    (0 ≤ x ∧ rta x = alawMidpoint (alawLevel x) ∧ alawFloor (alawLevel x) ≤ x ∧ x < alawFloor (alawLevel x + 1)) ∨
    (x < 0 ∧ rta x = -alawMidpoint (alawLevel x) ∧ alawFloor (alawLevel x) ≤ -x - 1 ∧
      -x - 1 < alawFloor (alawLevel x + 1)) := by
  have hbounds := alawLevel_bounds hx
  rw [rta_eq]
  by_cases hsign : 0 ≤ x
  · rw [alawFold, if_pos hsign] at hbounds
    exact .inl ⟨hsign, by rw [decide_eq_true hsign, signed_true], hbounds⟩
  · rw [alawFold, if_neg hsign] at hbounds
    exact .inr ⟨not_le.mp hsign, by rw [decide_eq_false hsign, signed_false], hbounds⟩

theorem two_mul_rta_error_le {x : Int} (hx : IsSample x) : 2 * |x - rta x| ≤ alawStep (alawSegOf x) := by
  have hmid := two_mul_alawMidpoint (alawLevel x)
  have hstep := alawFloor_succ (alawLevel x)
  rw [alawSegOf_eq]
  obtain ⟨-, hrta, hlow, hhigh⟩ | ⟨-, hrta, hlow, hhigh⟩ := rta_cases hx
  · rcases abs_cases (x - rta x) with ⟨habs, -⟩ | ⟨habs, -⟩ <;> omega
  · rcases abs_cases (x - rta x) with ⟨habs, -⟩ | ⟨habs, -⟩ <;> omega

/-- The lowest sample of a segment is half a step away from its midpoint. -/
theorem exists_two_mul_rta_error_eq {seg : Nat} (hseg : seg < 8) :
    ∃ x, IsSample x ∧ alawSegOf x = seg ∧ 2 * |x - rta x| = alawStep seg := by
  have hnonneg := alawFloor_nonneg (16 * seg)
  have hmax : alawFloor (16 * seg) ≤ alawFloor 127 := alawFloor_strictMono.monotone (by omega)
  have htop : alawFloor 127 = 31744 := by decide
  have hnext := alawFloor_strictMono (Nat.lt_succ_self (16 * seg))
  have hx : IsSample (alawFloor (16 * seg)) := ⟨by omega, by omega⟩
  have hlevel : alawLevel (alawFloor (16 * seg)) = 16 * seg := by
    rw [alawLevel_eq_iff hx, alawFold, if_pos hnonneg]
    exact ⟨le_rfl, hnext⟩
  have hseg' : 16 * seg / 16 = seg := Nat.mul_div_cancel_left seg (by decide)
  have hmid := two_mul_alawMidpoint (16 * seg)
  have hstep := alawFloor_succ (16 * seg)
  have hpos := alawStep_pos seg
  rw [hseg'] at hstep
  refine ⟨alawFloor (16 * seg), hx, by rw [alawSegOf_eq, hlevel, hseg'], ?_⟩
  rw [rta_eq, hlevel, decide_eq_true hnonneg, signed_true, abs_sub_comm, abs_of_nonneg (by omega)]
  omega

/-- Segment 7 holds 16 levels of 1024 samples each. -/
theorem alawFloor_of_top_segment {c : Nat} (hlow : 112 ≤ c) (hhigh : c < 128) :
    alawFloor c = 1024 * ((c : Int) - 96) ∧ alawFloor (c + 1) = 1024 * ((c : Int) - 96) + 1024 := by
  obtain ⟨m, rfl⟩ := Nat.exists_eq_add_of_le hlow
  have hm : m < 16 := by omega
  have hfloor : alawFloor (112 + m) = alawLow 7 m := alawFloor_packed (seg := 7) hm
  have hnext : alawFloor (112 + m + 1) = alawLow 7 m + alawStep 7 := alawFloor_packed_succ (seg := 7) hm
  have hvalue : alawLow 7 m = 1024 * (16 + m) := by simp [alawLow, mul_comm]
  have hstep : alawStep 7 = 1024 := by decide
  push_cast
  omega

/-- Below segment 7 the samples are below 16384 and a step is at most 512. -/
theorem alawFloor_of_lower_segment {c : Nat} (hc : c < 112) :
    alawFloor (c + 1) ≤ 16384 ∧ alawFloor (c + 1) ≤ alawFloor c + 512 := by
  have htop : alawFloor 112 = 16384 := by decide
  have hstep : ∀ seg < 7, alawStep seg ≤ 512 := by decide
  refine ⟨htop ▸ alawFloor_strictMono.monotone hc, ?_⟩
  rw [alawFloor_succ]
  have := hstep (c / 16) (by omega)
  omega

/-- The error 512 is half a step of segment 7, at the end of an interval nearer to zero on the non-negative side and at
the end farther from zero on the negative side. -/
theorem rta_error_eq_512_iff {x : Int} (hx : IsSample x) :
    |x - rta x| = 512 ↔
      (16384 ≤ x ∧ x ≤ 31744 ∧ x % 1024 = 0) ∨ (-32768 ≤ x ∧ x ≤ -17408 ∧ x % 1024 = 0) := by
  have hmid := two_mul_alawMidpoint (alawLevel x)
  have hlevel := alawLevel_lt x
  by_cases htop : 112 ≤ alawLevel x
  · obtain ⟨hfloor, hnext⟩ := alawFloor_of_top_segment htop hlevel
    obtain ⟨hsign, hrta, hlow, hhigh⟩ | ⟨hsign, hrta, hlow, hhigh⟩ := rta_cases hx
    · rcases abs_cases (x - rta x) with ⟨habs, hle⟩ | ⟨habs, hle⟩ <;> omega
    · rcases abs_cases (x - rta x) with ⟨habs, hle⟩ | ⟨habs, hle⟩ <;> omega
  · obtain ⟨hend, hstep⟩ := alawFloor_of_lower_segment (not_le.mp htop)
    have herror := two_mul_rta_error_le hx
    rw [alawSegOf_eq] at herror
    have hnext := alawFloor_succ (alawLevel x)
    obtain ⟨hsign, -, -, hhigh⟩ | ⟨hsign, -, -, hhigh⟩ := rta_cases hx
    · omega
    · omega

/-- Settles O38: a sample is at most half a step from the midpoint of its interval, and only segment 7 has steps of 1024. -/
theorem aLawRoundTripError : Obligations.ALawRoundTripError :=
  ⟨fun _ hx => two_mul_rta_error_le hx, fun _ hseg => exists_two_mul_rta_error_eq hseg,
    fun _ hx => rta_error_eq_512_iff hx⟩

end Sys2Proof.Proofs
end

section
/-! SUPPORT. The µ-law levels: the encoder finds the level whose interval holds the folded and clipped sample (R94) and the
decoder answers the middle of that interval (R101). The statements about the µ-law codec follow from these. -/
namespace Sys2Proof.Proofs
open Sys2Proof Sys2Proof.Machine Sys2Proof.Spec

/-- The lowest folded sample of a µ-law level; that of the next level is one past its highest (R94). -/
def ulawFloor (c : Nat) : Int := ulawLow (c / 16) (c % 16)

/-- The reconstruction magnitude of a µ-law level (R101). -/
def ulawMidpoint (c : Nat) : Int := ulawMid (c / 16) (c % 16)

/-- A sample folded about 3/2 (R93): plain negation before the shift moves the negative half up by 3. -/
def ulawFold (pcm : Int) : Int := if 0 ≤ pcm then pcm else 3 - pcm

/-- The folded sample, held to the last one below the saturated magnitude (R91). -/
def ulawClipped (pcm : Int) : Int := min (ulawFold pcm) 32635

/-- The pre-mask byte of a sample (R90 steps 1 to 7). -/
def ulawLevel (pcm : Int) : Nat := ulawPreMask (ulawBiasedOf pcm)

theorem ulawLevel_lt (pcm : Int) : ulawLevel pcm < 128 := ulawPreMask_lt _

theorem ulawFloor_packed {seg m : Nat} (hm : m < 16) : ulawFloor (16 * seg + m) = ulawLow seg m := by
  have hseg : (16 * seg + m) / 16 = seg := by omega
  have hmant : (16 * seg + m) % 16 = m := by omega
  rw [ulawFloor, hseg, hmant]

theorem ulawStep_ge (seg : Nat) : 8 ≤ ulawStep seg := by
  have h : (1 : Int) ≤ 2 ^ seg := one_le_pow₀ (by decide)
  rw [ulawStep, pow_add]
  omega

theorem ulawLow_next_segment (seg : Nat) : ulawLow (seg + 1) 0 = ulawLow seg 15 + ulawStep seg := by
  unfold ulawLow ulawStep
  push_cast
  ring

theorem ulawLow_next_mantissa (seg m : Nat) : ulawLow seg (m + 1) = ulawLow seg m + ulawStep seg := by
  unfold ulawLow ulawStep
  push_cast
  ring

theorem ulawFloor_succ (c : Nat) : ulawFloor (c + 1) = ulawFloor c + ulawStep (c / 16) := by
  obtain ⟨hseg, hmant⟩ | ⟨hlast, hseg, hmant⟩ := packed_succ c
  · rw [ulawFloor, hseg, hmant, ulawLow_next_mantissa, ulawFloor]
  · rw [ulawFloor, hseg, hmant, ulawLow_next_segment, ulawFloor, hlast]

theorem ulawFloor_packed_succ {seg m : Nat} (hm : m < 16) :
    ulawFloor (16 * seg + m + 1) = ulawLow seg m + ulawStep seg := by
  have hseg : (16 * seg + m) / 16 = seg := by omega
  rw [ulawFloor_succ, ulawFloor_packed hm, hseg]

theorem ulawFloor_strictMono : StrictMono ulawFloor :=
  strictMono_nat_of_lt_succ fun c => by
    have := ulawStep_ge (c / 16)
    rw [ulawFloor_succ]
    omega

theorem ulawFloor_one : ulawFloor 1 = 4 := by decide
theorem ulawFloor_127 : ulawFloor 127 = 31612 := by decide
theorem ulawFloor_128 : ulawFloor 128 = 32636 := by decide

theorem ulawFloor_succ_le {c : Nat} (hc : c < 128) : ulawFloor (c + 1) ≤ 32636 :=
  (ulawFloor_strictMono.monotone hc).trans_eq ulawFloor_128

theorem four_le_ulawFloor {c : Nat} (hc : c ≠ 0) : 4 ≤ ulawFloor c :=
  ulawFloor_one.symm.trans_le (ulawFloor_strictMono.monotone (Nat.one_le_iff_ne_zero.mpr hc))

theorem ulawMid_eq_low_add (seg m : Nat) : ulawMid seg m = ulawLow seg m + 2 ^ (seg + 2) := by
  unfold ulawMid ulawLow
  ring

theorem ulawStep_eq_two_mul (seg : Nat) : ulawStep seg = 2 * 2 ^ (seg + 2) := by
  unfold ulawStep
  ring

theorem two_mul_ulawMidpoint (c : Nat) : 2 * ulawMidpoint c = ulawFloor c + ulawFloor (c + 1) := by
  rw [ulawMidpoint, ulawMid_eq_low_add, ulawFloor_succ, ulawFloor, ulawStep_eq_two_mul]
  ring

theorem ulawMidpoint_mono : Monotone ulawMidpoint := midpoint_mono ulawFloor_strictMono two_mul_ulawMidpoint

theorem ulawMidpoint_zero : ulawMidpoint 0 = 0 := by decide

theorem ulawMidpoint_nonneg (c : Nat) : 0 ≤ ulawMidpoint c :=
  ulawMidpoint_zero.symm.trans_le (ulawMidpoint_mono (Nat.zero_le c))

theorem ulawMidpoint_pos {c : Nat} (hc : c ≠ 0) : 0 < ulawMidpoint c := by
  have hone : ulawMidpoint 1 = 8 := by decide
  have hle : ulawMidpoint 1 ≤ ulawMidpoint c := ulawMidpoint_mono (Nat.one_le_iff_ne_zero.mpr hc)
  omega

theorem ulawMidpoint_le {c : Nat} (hc : c < 128) : ulawMidpoint c ≤ 32124 := by
  have hmax : ulawMidpoint 127 = 32124 := by decide
  exact (ulawMidpoint_mono (Nat.le_of_lt_succ hc)).trans_eq hmax

/-- The magnitude is the folded sample less its two lowest bits (R90 steps 1 and 2). -/
theorem ulawMagOf_bounds (pcm : Int) :
    4 * (ulawMagOf pcm : Int) ≤ ulawFold pcm ∧ ulawFold pcm < 4 * (ulawMagOf pcm : Int) + 4 := by
  have hshift : ulawShifted pcm = pcm / 4 := rfl
  simp only [ulawMagOf, ulawMag, hshift, ulawFold]
  split_ifs <;> omega

theorem ulawBiasedOf_eq (pcm : Int) : ulawBiasedOf pcm = min (ulawMagOf pcm) 8159 + 33 := by
  rw [ulawBiasedOf, ulawBias_eq_add, ulawClip_eq_min]

/-- The level's interval, in units of the biased magnitude. -/
theorem ulawPreMask_bounds {mag : Nat} (hlow : 33 ≤ mag) (hhigh : mag < 8192) :
    ulawFloor (ulawPreMask mag) + 132 ≤ 4 * mag ∧ 4 * (mag : Int) + 4 ≤ ulawFloor (ulawPreMask mag + 1) + 132 := by
  obtain ⟨seg, h7, hseg, hpow, hpow'⟩ := exists_uSegment_of_biased hlow hhigh
  have hpre : ulawPreMask mag = 16 * seg + mag / 2 ^ (seg + 1) % 16 := by
    rw [ulawPreMask_eq, hseg, if_neg (by omega)]
  rw [hpre, ulawFloor_packed (Nat.mod_lt _ (by decide)), ulawFloor_packed_succ (Nat.mod_lt _ (by decide))]
  have hrest : mag % 2 ^ (seg + 1) < 2 ^ (seg + 1) := Nat.mod_lt _ (Nat.two_pow_pos _)
  have hmag := eq_mantissa_mul_add_mod hpow hpow'
  have hscale : ulawLow seg (mag / 2 ^ (seg + 1) % 16) + 132 =
      4 * (((16 + mag / 2 ^ (seg + 1) % 16) * 2 ^ (seg + 1) : Nat) : Int) := by
    rw [ulawLow]
    push_cast
    ring
  have hstep : ulawStep seg = 4 * ((2 ^ (seg + 1) : Nat) : Int) := by
    rw [ulawStep]
    push_cast
    ring
  omega

/-- The last level reaches from its lowest magnitude through every saturated one (R90 step 6, R91). -/
theorem ulawPreMask_of_ge {mag : Nat} (hmag : 7936 ≤ mag) : ulawPreMask mag = 127 := by
  rw [ulawPreMask_eq]
  obtain ⟨hlt, -⟩ | ⟨seg, -, h7, h, hlow, hhigh⟩ | ⟨-, h⟩ := uSegment_cases mag
  · omega
  · have hbound : 2 ^ (seg + 6) ≤ 2 ^ 12 ∨ seg = 7 := by
      by_cases hseg : seg = 7
      · exact .inr hseg
      · exact .inl (Nat.pow_le_pow_right (by decide) (by omega))
    obtain rfl : seg = 7 := by omega
    rw [h, if_neg (by decide)]
    omega
  · rw [h, if_pos le_rfl]

theorem ulawLevel_of_saturated {pcm : Int} (h : 32636 ≤ ulawFold pcm) : ulawLevel pcm = 127 := by
  have hmag := ulawMagOf_bounds pcm
  exact ulawPreMask_of_ge (by rw [ulawBiasedOf_eq]; omega)

theorem ulawFold_nonneg (pcm : Int) : 0 ≤ ulawFold pcm := by
  unfold ulawFold
  split <;> omega

theorem ulawLevel_bounds (pcm : Int) :
    ulawFloor (ulawLevel pcm) ≤ ulawClipped pcm ∧ ulawClipped pcm < ulawFloor (ulawLevel pcm + 1) := by
  have hfold := ulawMagOf_bounds pcm
  have hnonneg := ulawFold_nonneg pcm
  rw [ulawClipped]
  by_cases hsat : 32636 ≤ ulawFold pcm
  · rw [ulawLevel_of_saturated hsat, ulawFloor_127, ulawFloor_128]
    omega
  · have hbiased : ulawBiasedOf pcm = ulawMagOf pcm + 33 := by
      rw [ulawBiasedOf_eq]
      omega
    have hlevel := ulawPreMask_bounds (mag := ulawMagOf pcm + 33) (by omega) (by omega)
    rw [ulawLevel, hbiased]
    push_cast at hlevel
    omega

theorem ulawLevel_eq_iff (pcm : Int) (c : Nat) :
    ulawLevel pcm = c ↔ ulawFloor c ≤ ulawClipped pcm ∧ ulawClipped pcm < ulawFloor (c + 1) :=
  level_eq_iff ulawFloor_strictMono (ulawLevel_bounds pcm).1 (ulawLevel_bounds pcm).2 c

/-- A larger folded sample has no smaller level. -/
theorem ulawLevel_le {a b : Int} (hab : ulawFold a ≤ ulawFold b) : ulawLevel a ≤ ulawLevel b :=
  level_le_level ulawFloor_strictMono (ulawLevel_bounds a).1 (min_le_min_right _ hab) (ulawLevel_bounds b).2

theorem ulawLevel_congr {a b : Int} (hab : ulawClipped a = ulawClipped b) : ulawLevel a = ulawLevel b := by
  rw [ulawLevel_eq_iff, hab]
  exact ulawLevel_bounds b

/-- A negative sample folds to 4 at least, past the interval of level 0. -/
theorem ulawLevel_ne_zero_of_neg {pcm : Int} (hpcm : pcm < 0) : ulawLevel pcm ≠ 0 := by
  have hclipped : 4 ≤ ulawClipped pcm := by
    rw [ulawClipped, ulawFold, if_neg hpcm.not_ge]
    omega
  intro hzero
  have hbounds := ulawLevel_bounds pcm
  rw [hzero, zero_add, ulawFloor_one] at hbounds
  omega

theorem ulawMask_ulawShifted (pcm : Int) :
    ulawMask (ulawShifted pcm) = 0x7F + if decide (0 ≤ pcm) = true then 128 else 0 := by
  have hshift : ulawShifted pcm = pcm / 4 := rfl
  simp only [ulawMask, hshift, uMaskPos, uMaskNeg, decide_eq_true_eq]
  split_ifs <;> omega

theorem linear2ulaw_eq_wireCode (pcm : Int) :
    linear2ulaw pcm = wireCode 0x7F (decide (0 ≤ pcm)) (ulawLevel pcm) := by
  rw [wireCode, ← ulawMask_ulawShifted]
  rfl

theorem xor_127_eq_sub : ∀ c < 128, c ^^^ 127 = 127 - c := by decide

/-- Both µ-law masks complement the level (R41). -/
theorem wireCode_ulaw {c : Nat} (hc : c < 128) (nonneg : Bool) :
    wireCode 0x7F nonneg c = (if nonneg then 255 else 127) - c := by
  cases nonneg with
  | true =>
    rw [wireCode_true (by decide), xor_127_eq_sub c hc, ← add_128_eq_xor (127 - c) (by omega), if_pos rfl]
    omega
  | false => exact xor_127_eq_sub c hc

theorem ulawReconstruct_eq_mid (y : Nat) : (ulawReconstruct y : Int) = ulawMid (y / 16 % 8) (y % 16) + 132 := by
  rw [ulawReconstruct_eq, ulawMid]
  push_cast
  ring

/-- The complemented byte is the level with a sign bit on top for a negative sample (R100 step 1). -/
theorem unmask_ulaw_wireCode {c : Nat} (hc : c < 128) (nonneg : Bool) :
    not8 (wireCode 0x7F nonneg c) = c + if !nonneg then 128 else 0 := by
  rw [not8_def, wireCode_ulaw hc]
  cases nonneg with
  | true =>
    rw [if_pos rfl, Bool.not_true, if_neg Bool.false_ne_true]
    omega
  | false =>
    rw [if_neg Bool.false_ne_true, Bool.not_false, if_pos rfl]
    omega

theorem ulawReconstruct_unmask {c : Nat} (hc : c < 128) (nonneg : Bool) :
    (ulawReconstruct (not8 (wireCode 0x7F nonneg c)) : Int) = ulawMidpoint c + 132 := by
  obtain ⟨hseg, hmant, -⟩ := fields_of_signed_level hc (!nonneg)
  rw [unmask_ulaw_wireCode hc, ulawReconstruct_eq_mid, hseg, hmant, ulawMidpoint]

/-- The decoder reads back the sign and the level (R100, R47). -/
theorem ulaw2linear_wireCode {c : Nat} (hc : c < 128) (nonneg : Bool) :
    ulaw2linear (wireCode 0x7F nonneg c) = signed nonneg (ulawMidpoint c) := by
  obtain ⟨-, -, hsign⟩ := fields_of_signed_level hc (!nonneg)
  rw [← unmask_ulaw_wireCode hc] at hsign
  simp only [ulaw2linear, hsign, ulawReconstruct_unmask hc, bias, Nat.cast_ofNat]
  cases nonneg with
  | true => exact add_sub_cancel_right (ulawMidpoint c) 132
  | false => exact sub_add_cancel_right 132 (ulawMidpoint c)

theorem rtu_eq (x : Int) : rtu x = signed (decide (0 ≤ x)) (ulawMidpoint (ulawLevel x)) := by
  rw [rtu, linear2ulaw_eq_wireCode, ulaw2linear_wireCode (ulawLevel_lt x)]

theorem ulawSegOf_eq (x : Int) : ulawSegOf x = ulawLevel x / 16 := by
  have hlevel := ulawLevel_lt x
  rw [ulawSegOf, linear2ulaw_eq_wireCode, unmask_ulaw_wireCode hlevel, segField_eq_div_mod]
  exact (fields_of_signed_level hlevel _).1

theorem isSample_signed_ulawMidpoint {c : Nat} (hc : c < 128) (nonneg : Bool) :
    IsSample (signed nonneg (ulawMidpoint c)) := by
  have hlow := ulawMidpoint_nonneg c
  have hhigh := ulawMidpoint_le hc
  cases nonneg with
  | true => exact ⟨by rw [signed_true]; omega, by rw [signed_true]; omega⟩
  | false => exact ⟨by rw [signed_false]; omega, by rw [signed_false]; omega⟩

/-- The midpoint lies in its own interval, on either side: half a step is more than the 3 of the fold. -/
theorem ulawLevel_signed_ulawMidpoint {c : Nat} (hc : c < 128) (nonneg : Bool) :
    ulawLevel (signed nonneg (ulawMidpoint c)) = c := by
  have hmid := two_mul_ulawMidpoint c
  have hnonneg := ulawMidpoint_nonneg c
  have hmax := ulawMidpoint_le hc
  have hstep : ulawFloor (c + 1) = ulawFloor c + ulawStep (c / 16) := ulawFloor_succ c
  have hstep8 := ulawStep_ge (c / 16)
  rw [ulawLevel_eq_iff, ulawClipped, ulawFold]
  cases nonneg with
  | true =>
    rw [signed_true, if_pos hnonneg]
    omega
  | false =>
    rw [signed_false]
    split_ifs <;> omega

/-- The code a level comes back to: its own, but level 0 has no negative code (R92). -/
theorem linear2ulaw_signed_ulawMidpoint {c : Nat} (hc : c < 128) (nonneg : Bool) :
    linear2ulaw (signed nonneg (ulawMidpoint c)) = wireCode 0x7F (nonneg || decide (c = 0)) c := by
  have hnonneg := ulawMidpoint_nonneg c
  have hsign : decide (0 ≤ signed nonneg (ulawMidpoint c)) = (nonneg || decide (c = 0)) := by
    cases nonneg with
    | true => rw [signed_true, decide_eq_true hnonneg, Bool.true_or]
    | false =>
      rw [signed_false, Bool.false_or]
      refine decide_eq_decide.mpr ⟨fun h => ?_, ?_⟩
      · by_contra hne
        have := ulawMidpoint_pos hne
        omega
      · rintro rfl
        decide
  rw [linear2ulaw_eq_wireCode, hsign, ulawLevel_signed_ulawMidpoint hc]

theorem linear2ulaw_ulaw2linear {code : Nat} (hcode : code < 2 ^ 8) :
    linear2ulaw (ulaw2linear code) = if code = 0x7F then 0xFF else code := by
  obtain ⟨nonneg, c, hc, rfl⟩ := exists_eq_wireCode (inversion := 0x7F) (by decide) hcode
  rw [ulaw2linear_wireCode hc, linear2ulaw_signed_ulawMidpoint hc, wireCode_ulaw hc, wireCode_ulaw hc]
  cases nonneg with
  | true => rw [Bool.true_or, if_pos rfl, if_neg (by omega)]
  | false =>
    simp only [Bool.false_or, Bool.false_eq_true, if_false, decide_eq_true_eq]
    split_ifs <;> omega

theorem isSample_ulaw2linear {code : Nat} (hcode : code < 2 ^ 8) : IsSample (ulaw2linear code) := by
  obtain ⟨nonneg, c, hc, rfl⟩ := exists_eq_wireCode (inversion := 0x7F) (by decide) hcode
  rw [ulaw2linear_wireCode hc]
  exact isSample_signed_ulawMidpoint hc nonneg

theorem toInt_ulawDecoder (code : Code) : (ulawDecoder code).toInt = ulaw2linear code.toNat :=
  toInt_ofInt_of_isSample (isSample_ulaw2linear code.isLt)

/-- The code of negative zero is answered for no sample (R92). -/
theorem linear2ulaw_ne_0x7F (x : Int) : linear2ulaw x ≠ 0x7F := by
  have hlevel := ulawLevel_lt x
  rw [linear2ulaw_eq_wireCode, wireCode_ulaw hlevel]
  split_ifs with hsign
  · omega
  · have hne := ulawLevel_ne_zero_of_neg (not_le.mp (of_decide_eq_false (Bool.eq_false_iff.mpr hsign)))
    omega

/-- L2U answers the code that a sample was decoded from, but for negative zero. -/
theorem exec_l2u_ulawDecoder (code : Code) (s : State) :
    exec (.l2u (ulawDecoder code)) s =
      .next { s with resp := if code = 0x7F then 0x00FF else code.setWidth 16 } := by
  have hcode : code = 0x7F ↔ code.toNat = 0x7F := BitVec.toNat_inj.symm
  rw [exec_l2u_of_toInt (toInt_ulawDecoder code), linear2ulaw_ulaw2linear code.isLt]
  simp only [hcode]
  split_ifs
  · rfl
  · rw [BitVec.ofNat_toNat]

/-- Settles O46: the midpoint of a level is encoded to the level, on either side, and negative zero to zero; the encoder
never answers negative zero. -/
theorem uLawEncodeAfterDecode : Obligations.ULawEncodeAfterDecode := by
  refine ⟨fun ignored code s => ⟨ulawDecoder code, exec_u2l ignored code s, exec_l2u_ulawDecoder code _⟩, fun x _ => ?_⟩
  rw [rtu, rtu, linear2ulaw_ulaw2linear (linear2ulaw_lt x), if_neg (linear2ulaw_ne_0x7F x)]

/-- Settles O40: a negative sample is never of level 0, and every other code is that of its own decoded sample. -/
theorem uLawNegativeZeroIsNeverProduced : Obligations.ULawNegativeZeroIsNeverProduced := by
  refine ⟨fun pcm s t h hresp => ?_, fun c hc => ⟨ulawDecoder c, fun s => ?_⟩⟩
  · rw [exec_l2u_eq_linear2ulaw] at h
    obtain rfl := Host.Outcome.next.inj h
    exact linear2ulaw_ne_0x7F pcm.toInt ((ofNat_resp_inj (linear2ulaw_lt _) (by decide)).mp hresp)
  · rw [exec_l2u_ulawDecoder, if_neg hc]

/-- The intervals end at the saturated samples, and only the last one ends there. -/
theorem ulawLow_add_ulawStep_last {seg m : Nat} (hseg : seg < 8) (hm : m < 16) :
    ulawLow seg m + ulawStep seg ≤ 32636 ∧ (seg = 7 ∧ m = 15 ↔ ulawLow seg m + ulawStep seg = 32636) := by
  rw [← ulawFloor_packed_succ hm, ← ulawFloor_128, ulawFloor_strictMono.injective.eq_iff,
    ulawFloor_strictMono.le_iff_le]
  omega

/-- Settles O42: the level is the code's exactly when the folded sample lies in the level's interval, the last of which
holds everything clipped. -/
theorem uLawEncoderIntervals : Obligations.ULawEncoderIntervals := by
  intro seg m pcm s hseg hm hpcm
  have hc : 16 * seg + m < 128 := by omega
  have hcode (nonneg : Bool) (hsign : decide (0 ≤ pcm) = nonneg) :
      exec (.l2u (bits16 pcm)) s = .next { s with resp := BitVec.ofNat 16 (wireCode 0x7F nonneg (16 * seg + m)) } ↔
        ulawLow seg m ≤ ulawClipped pcm ∧ ulawClipped pcm < ulawLow seg m + ulawStep seg := by
    rw [exec_l2u_of_toInt (toInt_bits16 hpcm),
      next_resp_ofNat_inj (linear2ulaw_lt pcm) (wireCode_lt (by decide) hc nonneg), linear2ulaw_eq_wireCode, hsign,
      wireCode_inj, ulawLevel_eq_iff, ulawFloor_packed hm, ulawFloor_packed_succ hm]
  have hstep := ulawStep_ge seg
  obtain ⟨hend, hlast⟩ := ulawLow_add_ulawStep_last hseg hm
  refine ⟨fun hnonneg => (hcode true (decide_eq_true hnonneg)).trans ?_,
    fun hneg => (hcode false (decide_eq_false hneg.not_ge)).trans ?_⟩
  · rw [ulawClipped, ulawFold, if_pos hnonneg, hlast]
    omega
  · rw [ulawClipped, ulawFold, if_neg hneg.not_ge, hlast]
    omega

theorem le_ulawFold_iff {k : Int} (hk : 4 ≤ k) (pcm : Int) : k ≤ ulawFold pcm ↔ k ≤ pcm ∨ pcm ≤ 3 - k := by
  unfold ulawFold
  split <;> omega

theorem eight_le_locate_uTab_iff (mag : Nat) : 8 ≤ locate mag uTab ↔ 8192 ≤ mag := by
  rw [locate_uTab]
  obtain ⟨hlt, h⟩ | ⟨seg, -, h7, h, -, hhigh⟩ | ⟨hle, h⟩ := uSegment_cases mag
  · omega
  · have hpow : 2 ^ (seg + 6) ≤ 2 ^ 13 := Nat.pow_le_pow_right (by decide) (by omega)
    omega
  · omega

/-- A clip that leaves the magnitudes below the last level alone changes no level. -/
theorem ulawPreMask_ulawClip_eq_min {c : Nat} (hc : 7903 ≤ c) (mag : Nat) :
    ulawPreMask (ulawBias (ulawClip mag)) = ulawPreMask (ulawBias (min mag c)) := by
  rw [ulawClip_eq_min, ulawBias_eq_add, ulawBias_eq_add]
  by_cases hlast : 7903 ≤ mag
  · rw [ulawPreMask_of_ge (by omega), ulawPreMask_of_ge (by omega)]
  · rw [min_eq_left (by omega), min_eq_left (by omega)]

theorem ulawPreMask_ulawClip (mag : Nat) : ulawPreMask (ulawBias (ulawClip mag)) = ulawPreMask (ulawBias mag) := by
  rw [ulawPreMask_ulawClip_eq_min (le_max_right mag 7903), min_eq_left (le_max_left mag 7903)]

theorem linear2ulaw_of_saturated {pcm : Int} (h : 32636 ≤ ulawFold pcm) :
    linear2ulaw pcm = wireCode 0x7F (decide (0 ≤ pcm)) 127 := by
  rw [linear2ulaw_eq_wireCode, ulawLevel_of_saturated h]

/-- Settles O39: the clip and step 6 begin at fixed folded samples, and from the magnitude 7903 on the level is the last. -/
theorem uLawClipAndSaturation : Obligations.ULawClipAndSaturation := by
  intro pcm hpcm
  have hmag := ulawMagOf_bounds pcm
  have hclip := le_ulawFold_iff (k := 32640) (by decide) pcm
  have hsat := le_ulawFold_iff (k := 32636) (by decide) pcm
  refine ⟨?_, ?_, fun h => ?_, fun h => ?_, fun c hc => ?_, ?_⟩
  · rw [ulawClip_eq_min]
    omega
  · rw [eight_le_locate_uTab_iff, ulawBiasedOf_eq]
    omega
  · rw [linear2ulaw_of_saturated (hsat.mpr (.inl h)), decide_eq_true (by omega)]
    rfl
  · rw [linear2ulaw_of_saturated (hsat.mpr (.inr (by omega))), decide_eq_false (by omega)]
    rfl
  · exact congrArg (bitXor · _) (ulawPreMask_ulawClip_eq_min hc (ulawMagOf pcm))
  · exact congrArg (bitXor · _) (ulawPreMask_ulawClip (ulawMagOf pcm))

/-- Settles O41: -n and n + 3 fold to the same sample. -/
theorem uLawSignAsymmetry : Obligations.ULawSignAsymmetry := by
  intro n s h1 hn
  have hlevel : ulawLevel (-n) = ulawLevel (min (n + 3) 32767) := by
    refine ulawLevel_congr ?_
    simp only [ulawClipped, ulawFold]
    split_ifs <;> omega
  have hcode : linear2ulaw (-n) = linear2ulaw (min (n + 3) 32767) ^^^ 128 := by
    have hneg : decide (0 ≤ -n) = false := decide_eq_false (by omega)
    have hnonneg : decide (0 ≤ min (n + 3) 32767) = true := decide_eq_true (by omega)
    rw [linear2ulaw_eq_wireCode, linear2ulaw_eq_wireCode, wireCode_xor_128 (by decide), hneg, hnonneg, hlevel, Bool.not_true]
  refine ⟨_, exec_l2u_of_toInt (toInt_bits16 ⟨by omega, by omega⟩) s, ?_⟩
  rw [exec_l2u_of_toInt (toInt_bits16 ⟨by omega, by omega⟩), hcode, BitVec.ofNat_xor]
  rfl

/-- Settles O43: levels grow with the folded sample and midpoints with the level, on either side of zero. -/
theorem uLawRoundTripIsMonotone : Obligations.ULawRoundTripIsMonotone := by
  intro a b _ _ hab
  rw [rtu_eq, rtu_eq]
  refine signed_le_signed (ulawMidpoint_nonneg _) (ulawMidpoint_nonneg _) hab (fun hnonneg => ?_) fun hneg => ?_
  · refine ulawMidpoint_mono (ulawLevel_le ?_)
    rwa [ulawFold, ulawFold, if_pos hnonneg, if_pos (hnonneg.trans hab)]
  · refine ulawMidpoint_mono (ulawLevel_le ?_)
    rw [ulawFold, ulawFold, if_neg hneg.not_ge, if_neg (hab.trans_lt hneg).not_ge]
    omega

/-- Settles O44: the complemented byte's fields give the midpoint of the level; the closed forms are one polynomial. -/
theorem uLawDecoderAnswersTheMidpoint : Obligations.ULawDecoderAnswersTheMidpoint := by
  refine ⟨fun ignored code s => ?_, fun seg m => ⟨?_, ?_, ?_⟩, by decide, by decide⟩
  · have hy : (~~~code).toNat = 255 - code.toNat := BitVec.toNat_not
    simp only [toNat_segment_extract, toNat_mantissa_extract, getLsbD_seven_eq_decide, decide_eq_true_eq]
    rw [exec_u2l_eq_ulaw2linear, ulaw2linear_eq, ulawReconstruct_eq_mid, hy]
    congr 4
    · ring
    · ring
  · rw [ulawMid_eq_low_add, ulawStep_eq_two_mul, Int.mul_ediv_cancel_left _ two_ne_zero]
  · unfold ulawMid
    ring
  · unfold ulawMid
    ring

theorem ulaw2linear_xor_128 {code : Nat} (hcode : code < 2 ^ 8) : ulaw2linear (code ^^^ 128) = -ulaw2linear code := by
  obtain ⟨nonneg, c, hc, rfl⟩ := exists_eq_wireCode (inversion := 0x7F) (by decide) hcode
  rw [wireCode_xor_128 (by decide), ulaw2linear_wireCode hc, ulaw2linear_wireCode hc, signed_not]

/-- Level 0 alone is reconstructed as 0, from its code of either sign. -/
theorem ulaw2linear_eq_zero_iff {code : Nat} (hcode : code < 2 ^ 8) :
    ulaw2linear code = 0 ↔ code = 0xFF ∨ code = 0x7F := by
  obtain ⟨nonneg, c, hc, rfl⟩ := exists_eq_wireCode (inversion := 0x7F) (by decide) hcode
  have hzero : signed nonneg (ulawMidpoint c) = 0 ↔ c = 0 := by
    refine ⟨fun h => ?_, ?_⟩
    · by_contra hne
      have hpos := ulawMidpoint_pos hne
      cases nonneg with
      | true => exact hpos.ne' h
      | false => exact hpos.ne' (neg_eq_zero.mp h)
    · rintro rfl
      cases nonneg <;> decide
  rw [ulaw2linear_wireCode hc, hzero, wireCode_ulaw hc]
  cases nonneg with
  | true => rw [if_pos rfl]; omega
  | false => rw [if_neg Bool.false_ne_true]; omega

/-- Codes that decode alike are encoded alike. -/
theorem encoded_eq_of_ulawDecoder_eq {c d : Code} (h : ulawDecoder c = ulawDecoder d) :
    (if c.toNat = 0x7F then 0xFF else c.toNat) = if d.toNat = 0x7F then 0xFF else d.toNat := by
  rw [← linear2ulaw_ulaw2linear c.isLt, ← linear2ulaw_ulaw2linear d.isLt, ← toInt_ulawDecoder, ← toInt_ulawDecoder, h]

/-- Settles O45: bit 7 of the code is its sign, and the encoder takes every decoded sample but 0 back to its one code. -/
theorem uLawDecoderSignBitAndTheTwoZeros : Obligations.ULawDecoderSignBitAndTheTwoZeros := by
  have hFF (c : Code) : c = 0xFF ↔ c.toNat = 0xFF := BitVec.toNat_inj.symm
  have h7F (c : Code) : c = 0x7F ↔ c.toNat = 0x7F := BitVec.toNat_inj.symm
  refine ⟨fun ignored code s => ⟨ulawDecoder code, exec_u2l ignored code s, ?_, ?_⟩, fun c d h => ?_⟩
  · have hflip : (code ^^^ 0x80).toNat = code.toNat ^^^ 128 := BitVec.toNat_xor code 0x80
    rw [exec_u2l_eq_ulaw2linear, hflip, ulaw2linear_xor_128 code.isLt, BitVec.ofInt_neg]
    rfl
  · calc ulawDecoder code = 0
      _ ↔ (ulawDecoder code).toInt = 0 := BitVec.toInt_inj.symm
      _ ↔ code = 0xFF ∨ code = 0x7F := by rw [toInt_ulawDecoder, ulaw2linear_eq_zero_iff code.isLt, hFF, h7F]
  · have hcode := encoded_eq_of_ulawDecoder_eq h
    rw [hFF, hFF, h7F, h7F, ← BitVec.toNat_inj]
    split_ifs at hcode <;> omega

end Sys2Proof.Proofs
end

section
/-! SUPPORT. The µ-law round-trip error, from where a folded sample lies in the interval of its level. -/
namespace Sys2Proof.Proofs
open Sys2Proof Sys2Proof.Machine Sys2Proof.Spec

/-- The round trip answers the midpoint of the interval that holds the folded and clipped sample, on either side. -/
theorem rtu_cases (x : Int) :
    (0 ≤ x ∧ rtu x = ulawMidpoint (ulawLevel x) ∧ ulawFloor (ulawLevel x) ≤ min x 32635 ∧
      min x 32635 < ulawFloor (ulawLevel x + 1)) ∨
    (x < 0 ∧ rtu x = -ulawMidpoint (ulawLevel x) ∧ ulawFloor (ulawLevel x) ≤ min (3 - x) 32635 ∧
      min (3 - x) 32635 < ulawFloor (ulawLevel x + 1)) := by
  have hbounds := ulawLevel_bounds x
  rw [rtu_eq]
  by_cases hsign : 0 ≤ x
  · rw [ulawClipped, ulawFold, if_pos hsign] at hbounds
    exact .inl ⟨hsign, by rw [decide_eq_true hsign, signed_true], hbounds⟩
  · rw [ulawClipped, ulawFold, if_neg hsign] at hbounds
    exact .inr ⟨not_le.mp hsign, by rw [decide_eq_false hsign, signed_false], hbounds⟩

theorem two_mul_rtu_error_le_of_nonneg {x : Int} (hnonneg : 0 ≤ x) (hx : x ≤ 32635) :
    2 * |x - rtu x| ≤ ulawStep (ulawSegOf x) := by
  have hmid := two_mul_ulawMidpoint (ulawLevel x)
  have hstep := ulawFloor_succ (ulawLevel x)
  rw [ulawSegOf_eq]
  obtain ⟨-, hrtu, hlow, hhigh⟩ | ⟨hneg, -⟩ := rtu_cases x
  · rcases abs_cases (x - rtu x) with ⟨habs, -⟩ | ⟨habs, -⟩ <;> omega
  · omega

/-- The fold displaces the negative half by 3; the three folded samples past the last interval are nearer to its midpoint
than its lowest one. -/
theorem two_mul_rtu_error_le_of_neg {x : Int} (hx : -32635 ≤ x) (hneg : x < 0) :
    2 * (|x - rtu x| - 3) ≤ ulawStep (ulawSegOf x) := by
  have hmid := two_mul_ulawMidpoint (ulawLevel x)
  have hstep := ulawFloor_succ (ulawLevel x)
  have hend := ulawFloor_succ_le (ulawLevel_lt x)
  rw [ulawSegOf_eq]
  obtain ⟨hnonneg, -⟩ | ⟨-, hrtu, hlow, hhigh⟩ := rtu_cases x
  · omega
  · rcases abs_cases (x - rtu x) with ⟨habs, -⟩ | ⟨habs, -⟩ <;> omega

/-- The samples that fold to the lowest value of a level other than 0, one on either side, and their errors. -/
theorem rtu_error_at_floor {c : Nat} (hc0 : c ≠ 0) (hc : c < 128) :
    (ulawLevel (ulawFloor c) = c ∧ 2 * |ulawFloor c - rtu (ulawFloor c)| = ulawStep (c / 16)) ∧
    ulawLevel (3 - ulawFloor c) = c ∧ 2 * (|3 - ulawFloor c - rtu (3 - ulawFloor c)| - 3) = ulawStep (c / 16) := by
  have hlow := four_le_ulawFloor hc0
  have hnext := ulawFloor_succ c
  have hstep := ulawStep_ge (c / 16)
  have hend := ulawFloor_succ_le hc
  have hmid := two_mul_ulawMidpoint c
  have hnonneg : ulawLevel (ulawFloor c) = c := by
    rw [ulawLevel_eq_iff, ulawClipped, ulawFold, if_pos (by omega)]
    omega
  have hneg : ulawLevel (3 - ulawFloor c) = c := by
    rw [ulawLevel_eq_iff, ulawClipped, ulawFold, if_neg (by omega)]
    omega
  refine ⟨⟨hnonneg, ?_⟩, hneg, ?_⟩
  · rw [rtu_eq, hnonneg, decide_eq_true (by omega), signed_true, abs_sub_comm, abs_of_nonneg (by omega)]
    omega
  · rw [rtu_eq, hneg, decide_eq_false (by omega), signed_false, abs_of_nonneg (by omega)]
    omega

theorem exists_two_mul_rtu_error_eq {seg : Nat} (hseg : seg < 8) :
    ∃ x y, 0 ≤ x ∧ x ≤ 32635 ∧ ulawSegOf x = seg ∧ 2 * |x - rtu x| = ulawStep seg ∧
      -32635 ≤ y ∧ y < 0 ∧ ulawSegOf y = seg ∧ 2 * (|y - rtu y| - 3) = ulawStep seg := by
  have hc : 16 * seg + 1 < 128 := by omega
  have hseg' : (16 * seg + 1) / 16 = seg := by omega
  have hc0 : 16 * seg + 1 ≠ 0 := Nat.succ_ne_zero _
  have hlow := four_le_ulawFloor hc0
  have hnext : ulawFloor (16 * seg + 1) < ulawFloor (16 * seg + 1 + 1) := ulawFloor_strictMono (Nat.lt_succ_self _)
  have hend := ulawFloor_succ_le hc
  obtain ⟨⟨hlevel, herror⟩, hlevel', herror'⟩ := rtu_error_at_floor hc0 hc
  rw [hseg'] at herror herror'
  refine ⟨ulawFloor (16 * seg + 1), 3 - ulawFloor (16 * seg + 1), by omega, by omega, ?_, herror, by omega, by omega, ?_,
    herror'⟩
  · rw [ulawSegOf_eq, hlevel, hseg']
  · rw [ulawSegOf_eq, hlevel', hseg']

/-- Half a step is at most 512. -/
theorem ulawFloor_succ_le_add {c : Nat} (hc : c < 128) : ulawFloor (c + 1) ≤ ulawFloor c + 1024 := by
  have hstep : ∀ seg < 8, ulawStep seg ≤ 1024 := by decide
  have := hstep (c / 16) (by omega)
  rw [ulawFloor_succ]
  omega

/-- Above the last midpoint the clipped samples alone leave the interval of their level. -/
theorem ulawMidpoint_of_saturated {x : Int} (hx : 32636 ≤ ulawFold x) : ulawMidpoint (ulawLevel x) = 32124 := by
  rw [ulawLevel_of_saturated hx]
  decide

theorem rtu_error_le_of_nonneg {x : Int} (hx : IsSample x) (hnonneg : 0 ≤ x) : |x - rtu x| ≤ 643 := by
  have hwidth := ulawFloor_succ_le_add (ulawLevel_lt x)
  have hmid := two_mul_ulawMidpoint (ulawLevel x)
  have hsat := ulawMidpoint_of_saturated (x := x)
  rw [ulawFold, if_pos hnonneg] at hsat
  obtain ⟨-, hrtu, hlow, hhigh⟩ | ⟨hneg, -⟩ := rtu_cases x
  · rcases abs_cases (x - rtu x) with ⟨habs, -⟩ | ⟨habs, -⟩ <;> omega
  · omega

theorem rtu_error_le_of_neg {x : Int} (hx : IsSample x) (hneg : x < 0) :
    |x - rtu x| ≤ 644 ∧ (|x - rtu x| = 644 ↔ x = -32768) := by
  have hwidth := ulawFloor_succ_le_add (ulawLevel_lt x)
  have hmid := two_mul_ulawMidpoint (ulawLevel x)
  have hsat := ulawMidpoint_of_saturated (x := x)
  rw [ulawFold, if_neg hneg.not_ge] at hsat
  obtain ⟨hnonneg, -⟩ | ⟨-, hrtu, hlow, hhigh⟩ := rtu_cases x
  · omega
  · rcases abs_cases (x - rtu x) with ⟨habs, hle⟩ | ⟨habs, hle⟩ <;> omega

/-- Settles O47: a folded sample is at most half a step from the midpoint of its interval, the fold adds 3, and only the
clipped samples are farther away. -/
theorem uLawRoundTripError : Obligations.ULawRoundTripError := by
  refine ⟨fun x h0 hx => two_mul_rtu_error_le_of_nonneg h0 hx, fun x hx hneg => two_mul_rtu_error_le_of_neg hx hneg,
    fun seg hseg => exists_two_mul_rtu_error_eq hseg, fun x hx h0 => rtu_error_le_of_nonneg hx h0, by decide,
    fun x hx => ?_⟩
  by_cases hneg : x < 0
  · exact rtu_error_le_of_neg hx hneg
  · have hle := rtu_error_le_of_nonneg hx (not_lt.mp hneg)
    omega

end Sys2Proof.Proofs
end

section
/-! SUPPORT. The fields of both laws' responses and the ranges of the intermediate values, from the levels. -/
namespace Sys2Proof.Proofs
open Sys2Proof Sys2Proof.Machine Sys2Proof.Spec

/-- Settles O30: both responses are wire codes of the pre-mask byte, under 0x55 and under 0x7F. -/
theorem wireCodeFieldsOfBothLaws : Obligations.WireCodeFieldsOfBothLaws := by
  intro pcm s
  refine ⟨_, _, exec_l2a_eq_linear2alaw pcm s, exec_l2u_eq_linear2ulaw pcm s, ?_, ?_⟩
  · rw [linear2alaw_eq_wireCode]
    exact wireCode_fields (by decide) (alawLevel_lt _) _
  · rw [linear2ulaw_eq_wireCode]
    exact wireCode_fields (by decide) (ulawLevel_lt _) _

theorem alawSegment_le_seven {pcm : Int} (hpcm : IsSample pcm) : locate (alawMagOf pcm) aTab ≤ 7 := by
  have hmag := alawMagOf_lt hpcm
  rw [locate_aTab]
  obtain ⟨-, h⟩ | ⟨seg, -, h7, h, -⟩ | ⟨hle, -⟩ := aSegment_cases (alawMagOf pcm) <;> omega

theorem alawShifted_bounds {pcm : Int} (hpcm : IsSample pcm) : -4096 ≤ alawShifted pcm ∧ alawShifted pcm ≤ 4095 := by
  obtain ⟨hlow, hhigh⟩ := hpcm
  have hshift : alawShifted pcm = pcm / 8 := rfl
  omega

theorem ulawShifted_bounds {pcm : Int} (hpcm : IsSample pcm) : -8192 ≤ ulawShifted pcm ∧ ulawShifted pcm ≤ 8191 := by
  obtain ⟨hlow, hhigh⟩ := hpcm
  have hshift : ulawShifted pcm = pcm / 4 := rfl
  omega

theorem ulawMagOf_le {pcm : Int} (hpcm : IsSample pcm) : ulawMagOf pcm ≤ 8192 := by
  obtain ⟨hlow, hhigh⟩ := hpcm
  have hbounds := ulawMagOf_bounds pcm
  unfold ulawFold at hbounds
  split at hbounds <;> omega

/-- A decoded A-law value before its sign is a midpoint. -/
theorem alaw_decode_ranges (code : Code) :
    (8 ≤ alawReconstruct (bitXor code.toNat 0x55) ∧ alawReconstruct (bitXor code.toNat 0x55) ≤ 32256) ∧
    (alaw2linear code.toNat).natAbs = alawReconstruct (bitXor code.toNat 0x55) := by
  obtain ⟨nonneg, c, hc, hcode⟩ := exists_eq_wireCode (inversion := 0x55) (by decide) code.isLt
  have hvalue : (alawReconstruct (bitXor code.toNat 0x55) : Int) = alawMidpoint c := by
    rw [hcode]
    exact alawReconstruct_unmask hc nonneg
  have hsigned : alaw2linear code.toNat = signed nonneg (alawMidpoint c) := by rw [hcode, alaw2linear_wireCode hc]
  have hlow := alawMidpoint_ge c
  have hhigh := alawMidpoint_le hc
  refine ⟨by omega, ?_⟩
  rw [hsigned, ← hvalue]
  cases nonneg with
  | true => exact Int.natAbs_natCast _
  | false => rw [signed_false, Int.natAbs_neg, Int.natAbs_natCast]

/-- A decoded µ-law value before its sign is a midpoint, with the bias still on before step 4. -/
theorem ulaw_decode_ranges (code : Code) :
    (132 ≤ ulawReconstruct (not8 code.toNat) ∧ ulawReconstruct (not8 code.toNat) ≤ 32256) ∧
    (-32124 ≤ ulaw2linear code.toNat ∧ ulaw2linear code.toNat ≤ 32124) := by
  obtain ⟨nonneg, c, hc, hcode⟩ := exists_eq_wireCode (inversion := 0x7F) (by decide) code.isLt
  have hvalue : (ulawReconstruct (not8 code.toNat) : Int) = ulawMidpoint c + 132 := by
    rw [hcode, ulawReconstruct_unmask hc]
  have hsigned : ulaw2linear code.toNat = signed nonneg (ulawMidpoint c) := by rw [hcode, ulaw2linear_wireCode hc]
  have hlow := ulawMidpoint_nonneg c
  have hhigh := ulawMidpoint_le hc
  refine ⟨by omega, ?_⟩
  rw [hsigned]
  cases nonneg with
  | true => rw [signed_true]; omega
  | false => rw [signed_false]; omega

/-- Settles O23: the encoders' values by their shifts, clip and bias, the decoders' by the midpoints of the levels. -/
theorem intermediateValuesStayInRange : Obligations.IntermediateValuesStayInRange := by
  refine ⟨fun pcm hpcm => ⟨alawShifted_bounds hpcm, Nat.le_of_lt_succ (alawMagOf_lt hpcm), alawSegment_le_seven hpcm,
    Nat.le_of_lt_succ (alawLevel_lt pcm), ulawShifted_bounds hpcm, ulawMagOf_le hpcm, ?clip, ?biased,
    locate_le_eight _ _, Nat.le_of_lt_succ (ulawLevel_lt pcm)⟩, fun c => ?codes⟩
  case clip =>
    rw [ulawClip_eq_min]
    exact Nat.min_le_right _ _
  case biased =>
    rw [ulawBiasedOf_eq]
    omega
  case codes =>
    obtain ⟨hrange, habs⟩ := alaw_decode_ranges c
    exact ⟨hrange, habs, ulaw_decode_ranges c⟩

end Sys2Proof.Proofs
end

section
/-! SUPPORT. The 16-bit datapath of R9 stage by stage: each word holds the integer of the same stage, so the blocks agree. -/
namespace Sys2Proof.Proofs
open Sys2Proof Sys2Proof.Machine Sys2Proof.Spec

/-- The parallel locator on the A-law thresholds (R65). -/
theorem toNat_priorityLocate_aTab (v : LocValue) :
    (Datapath16.priorityLocate 0x1F v).toNat = locate v.toNat aTab := by
  rw [locate_aTab]
  simp only [Datapath16.priorityLocate, apply_ite BitVec.toNat, BitVec.ule_eq_decide, decide_eq_true_eq]
  rfl

/-- The parallel locator on the µ-law thresholds (R65). -/
theorem toNat_priorityLocate_uTab (v : LocValue) :
    (Datapath16.priorityLocate 0x3F v).toNat = locate v.toNat uTab := by
  rw [locate_uTab]
  simp only [Datapath16.priorityLocate, apply_ite BitVec.toNat, BitVec.ule_eq_decide, decide_eq_true_eq]
  rfl

/-- Words below 2^15 compare as signed words like the numbers they hold. -/
theorem slt_iff_toNat_lt {x y : BitVec 16} (hx : x.toNat < 32768) (hy : y.toNat < 32768) :
    x.slt y = true ↔ x.toNat < y.toNat := by
  rw [BitVec.slt_iff_toInt_lt, BitVec.toInt_eq_toNat_of_lt (by omega), BitVec.toInt_eq_toNat_of_lt (by omega)]
  exact Int.ofNat_lt

theorem slt_zero_iff (v : BitVec 16) : v.slt 0 = true ↔ v.toInt < 0 := BitVec.slt_iff_toInt_lt

/-- Negation overflows for the lowest sample alone. -/
theorem toInt_neg_of_gt {v : BitVec 16} (hv : -32768 < v.toInt) : (-v).toInt = -v.toInt := by
  have hle := (isSample_toInt v).2
  have hneg : -v = BitVec.ofInt 16 (-v.toInt) := by rw [BitVec.ofInt_neg, BitVec.ofInt_toInt]
  rw [hneg]
  exact toInt_ofInt_of_isSample ⟨by omega, by omega⟩

theorem toNat_of_toInt_nonneg {x : BitVec 16} (h : 0 ≤ x.toInt) : x.toNat = x.toInt.toNat := by
  have hx := x.isLt
  rw [BitVec.toInt_eq_toNat_cond] at h ⊢
  split_ifs at h ⊢ <;> omega

/-- The A-law magnitude stage of the datapath. -/
def alawMag16 (v : BitVec 16) : BitVec 16 := if v.slt 0 then -v - 1 else v

/-- The A-law locator and packing stages of the datapath. -/
def alawPreMask16 (mag : BitVec 16) : BitVec 16 :=
  let seg := Datapath16.priorityLocate 0x1F mag
  if seg.slt 8 then (seg <<< 4) ||| (if seg.slt 2 then (mag >>> 1) &&& 0x0F else (mag >>> seg) &&& 0x0F) else 0x7F

/-- The µ-law magnitude stage of the datapath. -/
def ulawMag16 (v : BitVec 16) : BitVec 16 := if v.slt 0 then -v else v

/-- The µ-law clip and bias stages of the datapath. -/
def ulawBias16 (mag : BitVec 16) : BitVec 16 := (if (8159 : BitVec 16).slt mag then 8159 else mag) + 33

/-- The µ-law locator and packing stages of the datapath. -/
def ulawPreMask16 (mag : BitVec 16) : BitVec 16 :=
  let seg := Datapath16.priorityLocate 0x3F mag
  if seg.slt 8 then (seg <<< 4) ||| ((mag >>> (seg + 1)) &&& 0x0F) else 0x7F

/-- The A-law decoder of the datapath before the sign, on the unmasked byte. -/
def alawReconstruct16 (x : BitVec 16) : BitVec 16 :=
  let t := (x &&& 0x0F) <<< 4
  let seg := (x &&& 0x70) >>> 4
  if seg = 0 then t + 8 else if seg = 1 then t + 0x108 else (t + 0x108) <<< (seg - 1)

/-- The µ-law decoder of the datapath before the sign and the bias, on the complemented byte. -/
def ulawReconstruct16 (y : BitVec 16) : BitVec 16 := (((y &&& 0x0F) <<< 3) + 132) <<< ((y &&& 0x70) >>> 4)

theorem datapath_alawEncoder_eq (w : Sample) : Datapath16.alawEncoder w =
    (alawPreMask16 (alawMag16 (w.sshiftRight 3)) ^^^
      (if (w.sshiftRight 3).slt 0 then 0x55 else 0xD5)).setWidth 8 := rfl

theorem datapath_ulawEncoder_eq (w : Sample) : Datapath16.ulawEncoder w =
    (ulawPreMask16 (ulawBias16 (ulawMag16 (w.sshiftRight 2))) ^^^
      (if (w.sshiftRight 2).slt 0 then 0x7F else 0xFF)).setWidth 8 := rfl

theorem datapath_alawDecoder_eq (code : Code) : Datapath16.alawDecoder code =
    if (code.setWidth 16 ^^^ 0x55) &&& 0x80 = 0 then -alawReconstruct16 (code.setWidth 16 ^^^ 0x55)
    else alawReconstruct16 (code.setWidth 16 ^^^ 0x55) := rfl

theorem datapath_ulawDecoder_eq (code : Code) : Datapath16.ulawDecoder code =
    if (~~~code).setWidth 16 &&& 0x80 = 0 then ulawReconstruct16 ((~~~code).setWidth 16) - 132
    else 132 - ulawReconstruct16 ((~~~code).setWidth 16) := rfl

theorem toNat_alawMag16 (v : BitVec 16) : (alawMag16 v).toNat = alawMag v.toInt := by
  have hcomplement : -v - 1 = ~~~v := (BitVec.not_eq_neg_add v).symm
  rw [alawMag16, hcomplement, alawMag]
  by_cases hsign : v.toInt < 0
  · rw [if_pos ((slt_zero_iff v).mpr hsign), if_neg (by omega), toNat_of_toInt_nonneg (by rw [toInt_complement]; omega),
      toInt_complement]
  · rw [if_neg (mt (slt_zero_iff v).mp hsign), if_pos (by omega), toNat_of_toInt_nonneg (by omega)]

theorem toNat_ulawMag16 {v : BitVec 16} (hv : -32768 < v.toInt) : (ulawMag16 v).toNat = ulawMag v.toInt := by
  rw [ulawMag16, ulawMag]
  by_cases hsign : v.toInt < 0
  · rw [if_pos ((slt_zero_iff v).mpr hsign), if_pos hsign, toNat_of_toInt_nonneg (by rw [toInt_neg_of_gt hv]; omega),
      toInt_neg_of_gt hv]
  · rw [if_neg (mt (slt_zero_iff v).mp hsign), if_neg hsign, toNat_of_toInt_nonneg (by omega)]

theorem toNat_ulawBias16 {mag : BitVec 16} (hmag : mag.toNat < 32768) :
    (ulawBias16 mag).toNat = ulawBias (ulawClip mag.toNat) := by
  have hclip : (8159 : BitVec 16).slt mag = true ↔ 8159 < mag.toNat := slt_iff_toNat_lt (by decide) hmag
  have hmin : (if (8159 : BitVec 16).slt mag then 8159 else mag).toNat = min mag.toNat 8159 := by
    split_ifs with h
    · rw [min_eq_right (hclip.mp h).le]
      rfl
    · rw [min_eq_left (not_lt.mp (mt hclip.mpr h))]
  have hbias : (33 : BitVec 16).toNat = 33 := rfl
  rw [ulawBias16, BitVec.toNat_add, hmin, hbias, ulawBias_eq_add, ulawClip_eq_min]
  exact Nat.mod_eq_of_lt (by omega)

/-- Segment and mantissa packed in a word are the packed byte. -/
theorem toNat_packed_word {seg mant : BitVec 16} (hseg : seg.toNat < 8) :
    ((seg <<< 4) ||| mant).toNat = packFields seg.toNat mant.toNat := by
  rw [BitVec.toNat_or, BitVec.toNat_shiftLeft, Nat.mod_eq_of_lt (by rw [Nat.shiftLeft_eq]; omega)]
  rfl

theorem toNat_alawPreMask16 (mag : BitVec 16) : (alawPreMask16 mag).toNat = alawPreMask mag.toNat := by
  have hle := locate_le_eight mag.toNat aTab
  simp only [alawPreMask16, alawPreMask, ← toNat_priorityLocate_aTab] at hle ⊢
  generalize Datapath16.priorityLocate 0x1F mag = seg at hle ⊢
  have hslt (k : BitVec 16) (hk : k.toNat < 32768) : seg.slt k = true ↔ seg.toNat < k.toNat :=
    slt_iff_toNat_lt (by omega) hk
  have hsltEight : seg.slt 8 = true ↔ seg.toNat < 8 := hslt 8 (by decide)
  have hsltTwo : seg.slt 2 = true ↔ seg.toNat < 2 := hslt 2 (by decide)
  by_cases hseg : seg.toNat < 8
  · rw [if_pos (hsltEight.mpr hseg), if_neg (not_le.mpr hseg), toNat_packed_word hseg, apply_ite BitVec.toNat, alawMant]
    simp only [hsltTwo]
    rfl
  · rw [if_neg (mt hsltEight.mp hseg), if_pos (not_lt.mp hseg)]
    rfl

theorem toNat_ulawPreMask16 (mag : BitVec 16) : (ulawPreMask16 mag).toNat = ulawPreMask mag.toNat := by
  have hle := locate_le_eight mag.toNat uTab
  simp only [ulawPreMask16, ulawPreMask, ← toNat_priorityLocate_uTab] at hle ⊢
  generalize Datapath16.priorityLocate 0x3F mag = seg at hle ⊢
  have hsltEight : seg.slt 8 = true ↔ seg.toNat < 8 := slt_iff_toNat_lt (by omega) (by decide)
  by_cases hseg : seg.toNat < 8
  · have hnext : (seg + 1).toNat = seg.toNat + 1 := BitVec.toNat_add_of_lt (Nat.succ_lt_succ hseg |>.trans (by decide))
    rw [if_pos (hsltEight.mpr hseg), if_neg (not_le.mpr hseg), toNat_packed_word hseg, ulawMant, ← hnext]
    rfl
  · rw [if_neg (mt hsltEight.mp hseg), if_pos (not_lt.mp hseg)]
    rfl

/-- The low byte of the masked word is the masked byte. -/
theorem setWidth_xor_eq_bits8 {x y : BitVec 16} {a b : Nat} (hx : x.toNat = a) (hy : y.toNat = b) :
    (x ^^^ y).setWidth 8 = bits8 (bitXor a b) := by
  rw [← hx, ← hy, ← BitVec.ofNat_toNat, BitVec.toNat_xor]
  rfl

theorem datapath_alawEncoder (w : Sample) : Datapath16.alawEncoder w = alawEncoder w := by
  have hshift : (w.sshiftRight 3).toInt = alawShifted w.toInt := (asr_sint16 w 3).symm
  have hmask : (if (w.sshiftRight 3).slt 0 then 0x55 else 0xD5 : BitVec 16).toNat = alawMask (alawShifted w.toInt) := by
    simp only [alawMask, slt_zero_iff, hshift, ge_iff_le, ← not_lt, ite_not]
    split_ifs <;> rfl
  rw [datapath_alawEncoder_eq]
  refine setWidth_xor_eq_bits8 ?_ hmask
  rw [toNat_alawPreMask16, toNat_alawMag16, hshift]
  rfl

theorem datapath_ulawEncoder (w : Sample) : Datapath16.ulawEncoder w = ulawEncoder w := by
  have hshift : (w.sshiftRight 2).toInt = ulawShifted w.toInt := (asr_sint16 w 2).symm
  have hrange := ulawShifted_bounds (isSample_toInt w)
  have hmag : (ulawMag16 (w.sshiftRight 2)).toNat = ulawMagOf w.toInt := by
    rw [toNat_ulawMag16 (by omega), hshift, ulawMagOf]
  have hmagLe := ulawMagOf_le (isSample_toInt w)
  have hmask : (if (w.sshiftRight 2).slt 0 then 0x7F else 0xFF : BitVec 16).toNat = ulawMask (ulawShifted w.toInt) := by
    simp only [ulawMask, slt_zero_iff, hshift]
    split_ifs <;> rfl
  rw [datapath_ulawEncoder_eq]
  refine setWidth_xor_eq_bits8 ?_ hmask
  rw [toNat_ulawPreMask16, toNat_ulawBias16 (by omega), hmag]
  rfl

/-- Shifting a word left is shifting the number, modulo the width. -/
theorem ofNat_shiftLeft (a k : Nat) : BitVec.ofNat 16 a <<< k = BitVec.ofNat 16 (shl a k) := by
  refine BitVec.eq_of_toNat_eq ?_
  rw [BitVec.toNat_shiftLeft, BitVec.toNat_ofNat, BitVec.toNat_ofNat, Nat.shiftLeft_eq, shl_eq_mul, Nat.mod_mul_mod]

theorem mantField_word (x : BitVec 16) : x &&& 0x0F = BitVec.ofNat 16 (mantField x.toNat) := by
  rw [mantField, bitAnd, BitVec.ofNat_and, BitVec.ofNat_toNat, BitVec.setWidth_eq]
  rfl

theorem toNat_segField_word (x : BitVec 16) : ((x &&& 0x70) >>> 4).toNat = segField x.toNat := by
  rw [BitVec.toNat_ushiftRight, BitVec.toNat_and]
  rfl

theorem signField_word (x : BitVec 16) : x &&& 0x80 = 0 ↔ ¬signField x.toNat = true := by
  have hbit : (x &&& 0x80).toNat = bitAnd x.toNat signBit := BitVec.toNat_and x 0x80
  rw [signField, bne_iff_ne, not_not, ← hbit]
  exact BitVec.toNat_inj.symm

theorem alawReconstruct16_eq (x : BitVec 16) : alawReconstruct16 x = BitVec.ofNat 16 (alawReconstruct x.toNat) := by
  have hseg := toNat_segField_word x
  have hzero : (x &&& 0x70) >>> 4 = 0 ↔ segField x.toNat = 0 := by rw [← hseg]; exact BitVec.toNat_inj.symm
  have hone : (x &&& 0x70) >>> 4 = 1 ↔ segField x.toNat = 1 := by rw [← hseg]; exact BitVec.toNat_inj.symm
  simp only [alawReconstruct16, alawReconstruct, hzero, hone, mantField_word, ofNat_shiftLeft]
  split_ifs with h0 h1
  · exact (BitVec.ofNat_add _ _).symm
  · exact (BitVec.ofNat_add _ _).symm
  · have hle : (1 : BitVec 16) ≤ (x &&& 0x70) >>> 4 := by
      rw [BitVec.le_def, hseg]
      exact Nat.one_le_iff_ne_zero.mpr h0
    have hpred : ((x &&& 0x70) >>> 4 - 1).toNat = segField x.toNat - 1 := by
      rw [BitVec.toNat_sub_of_le hle, hseg]
      rfl
    rw [BitVec.shiftLeft_eq', hpred, ← ofNat_shiftLeft (_ + _), BitVec.ofNat_add]
    rfl

theorem ulawReconstruct16_eq (y : BitVec 16) : ulawReconstruct16 y = BitVec.ofNat 16 (ulawReconstruct y.toNat) := by
  rw [ulawReconstruct16, ulawReconstruct, BitVec.shiftLeft_eq', toNat_segField_word, mantField_word, ofNat_shiftLeft,
    ← ofNat_shiftLeft (_ + _), BitVec.ofNat_add]
  rfl

theorem datapath_alawDecoder (code : Code) : Datapath16.alawDecoder code = alawDecoder code := by
  have hx : (code.setWidth 16 ^^^ 0x55).toNat = bitXor code.toNat aMaskNeg := by
    rw [BitVec.toNat_xor, BitVec.toNat_setWidth_of_le (by decide)]
    rfl
  simp only [datapath_alawDecoder_eq, signField_word, alawReconstruct16_eq, hx, ite_not, alawDecoder, alaw2linear, bits16_def]
  split_ifs
  · rw [BitVec.ofInt_natCast]
  · rw [BitVec.ofInt_neg, BitVec.ofInt_natCast]

theorem datapath_ulawDecoder (code : Code) : Datapath16.ulawDecoder code = ulawDecoder code := by
  have hy : ((~~~code).setWidth 16).toNat = not8 code.toNat := by
    rw [BitVec.toNat_setWidth_of_le (by decide), BitVec.toNat_not]
    rfl
  simp only [datapath_ulawDecoder_eq, signField_word, ulawReconstruct16_eq, hy, ite_not, ulawDecoder, ulaw2linear, bits16_def]
  split_ifs
  · rw [Int.sub_eq_add_neg, BitVec.ofInt_add, BitVec.ofInt_neg, BitVec.ofInt_natCast, ← BitVec.sub_eq_add_neg]
    rfl
  · rw [Int.sub_eq_add_neg, BitVec.ofInt_add, BitVec.ofInt_neg, BitVec.ofInt_natCast, ← BitVec.sub_eq_add_neg]
    rfl

/-- Settles O24: stage by stage the words of the datapath hold the integers of the blocks. -/
theorem sixteenBitDatapathGivesTheSameResults : Obligations.SixteenBitDatapathGivesTheSameResults :=
  ⟨fun w => ⟨datapath_alawEncoder w, datapath_ulawEncoder w⟩, fun c => ⟨datapath_alawDecoder c, datapath_ulawDecoder c⟩,
    fun v => ⟨toNat_priorityLocate_aTab v, toNat_priorityLocate_uTab v⟩⟩

end Sys2Proof.Proofs
end
